-- ==== Sys2Proof/Word.lean ====
section
/-! DEFINITION. The machine's words: bytes, the program counter, register indices. -/

namespace Sys2Proof

/-- An unsigned 8-bit value: a memory cell, a register, the flags register (00_scope.md R9). -/
abbrev Byte := BitVec 8

/-- The program counter's 9 bits (10_state.md R28). -/
abbrev PC := BitVec 9

/-- The index of one of the eight general registers, already validated (10_state.md R20, R22). -/
abbrev Reg := Fin 8

end Sys2Proof
end

