-- ==== Sys2Proof/Config.lean ====
section
/-! DEFINITION. The parameters the spec leaves to the implementation: the reset values of the registers. -/

namespace Sys2Proof

/-- 00_scope.md R6: the named parameters `REG_INIT` and `SP_INIT`, fixed for an implementation. -/
structure Config where
  /-- `REG_INIT`: the reset values of registers 0 to 6 (10_state.md R40). -/
  regInit : Vector Byte 7
  /-- `SP_INIT`: the reset value of register 7, the stack pointer (10_state.md R41). -/
  spInit : Byte
  deriving DecidableEq, Repr

/-- The spec's reference configuration (10_state.md R40, R41): registers 0 to 6 zero, the stack pointer 0xFF.
DESIGN CHOICE (log 1, log 2), unsafe: no statement may rest on these values. -/
def Config.reference : Config := { regInit := Vector.replicate 7 0, spInit := 0xFF }

end Sys2Proof
end

