-- ==== Sys2Proof/Machine/State.lean ====
section
/-! DEFINITION. The whole state of the CORE as plain data, its reset values, and the reasons the model stops. -/

namespace Sys2Proof.Machine

/-- The kinds of fault of the CORE (60_exceptions.md R240). Taking one is a next state (R250): the run status becomes
Faulted and the fault record is written. -/
inductive FaultKind where
  /-- A fetch past address 255, or CALL at address 254 (60_exceptions.md R241). -/
  | outOfRange
  /-- A register operand byte above 7 (60_exceptions.md R242). -/
  | invalidRegister
  /-- An opcode byte outside the opcode map (60_exceptions.md R243). -/
  | illegalInstruction
  /-- An ALU operation outside ADD, MUL, CMP; no instruction selects one (60_exceptions.md R244). -/
  | unsupportedOperation
  deriving DecidableEq, Repr

/-- What a phase of a step raises: the fault and its `info`, the offending address, opcode byte, operand byte or ALU
operation (10_state.md R26, 60_exceptions.md R240). The spec gives `info` no width: a number (log 6). -/
structure Raised where
  /-- Which fault. -/
  kind : FaultKind
  /-- The offending value. -/
  info : Nat
  deriving DecidableEq, Repr

/-- The fault record (10_state.md R26). -/
structure FaultRecord where
  /-- Which fault. -/
  kind : FaultKind
  /-- The instruction address of the faulting step. -/
  fpc : PC
  /-- The offending value. -/
  info : Nat
  deriving DecidableEq, Repr

/-- The run status (10_state.md R25). -/
inductive RunStatus where
  /-- The engine executes steps. -/
  | running
  /-- HLT was executed; terminal. -/
  | halted
  /-- A fault was taken; terminal. -/
  | faulted
  deriving DecidableEq, Repr

/-- The memory array as its non-zero cells, addresses strictly rising (20_memory.md R50); an address not listed reads
as 0, the reset value of every cell (10_state.md R39; log 15). -/
abbrev Memory := List Host.Cell

/-- Everything the spec gives the machine (10_state.md, its first paragraph: nothing else is state). -/
structure State where
  /-- `x[0]` to `x[7]`; `x[7]` is the stack pointer (10_state.md R20, R23). -/
  regs : Vector Byte 8
  /-- The program counter (10_state.md R28). -/
  pc : PC
  /-- The flags register (10_state.md R32, R33). -/
  fl : Byte
  /-- The run status (10_state.md R25). -/
  status : RunStatus
  /-- The fault record; `none` while it is not valid (10_state.md R26). -/
  faultRecord : Option FaultRecord
  /-- The memory array (20_memory.md R50). -/
  mem : Memory
  /-- The output trace, oldest byte first (10_state.md R27). -/
  output : List Byte
  deriving DecidableEq, Repr

/-- Reasons an operation of the model answers a fault outcome. A fault of the CORE is not one of them: its entry is a
next state (60_exceptions.md R250; log 18), and no step answers a fault. -/
inductive Fault where
  /-- Raised by the host's load of more than 256 bytes (`State.load`), never by a step: the CORE is not started
  (70_reset_and_hazards.md R284). Safe: such a program has no run. -/
  | loadTooLong
  deriving DecidableEq, Repr

/-- Reasons the model gives no meaning. -/
inductive Refusal where
  /-- Raised by an arm of `exec` whose instruction has no meaning yet; no arm does. Safe: nothing can be proved of it. -/
  | notModelled (mnemonic : String)
  deriving DecidableEq, Repr

/-- Reset of an implementation with the parameters `c` (10_state.md R39, 70_reset_and_hazards.md R280). -/
def State.resetWith (c : Config) : State :=
  { regs := c.regInit.push c.spInit
    pc := 0
    fl := 0
    status := .running
    faultRecord := none
    mem := []
    output := [] }

/-- The machine right after reset, in the spec's reference configuration (10_state.md R39 to R41; log 1, log 2). -/
def State.reset : State := State.resetWith Config.reference

end Sys2Proof.Machine
end

