-- ==== Sys2Proof/Machine/Memory.lean ====
section
/-! DEFINITION. The memory array's two operations and its canonical form. -/

namespace Sys2Proof.Machine

/-- The byte at an address; an unlisted address reads as 0 (10_state.md R39; log 15). -/
def Memory.read : Memory → Nat → Byte
  | [], _ => 0
  | c :: m, x => if c.1 = x then c.2 else Memory.read m x

/-- Puts a cell before the first cell with a higher address. -/
def Memory.place (c : Host.Cell) : Memory → Memory
  | [] => [c]
  | d :: m => if c.1 < d.1 then c :: d :: m else d :: Memory.place c m

/-- Sets the byte at an address; writing 0, what an unlisted address reads as, only removes the entry. -/
def Memory.write (m : Memory) (x : Nat) (v : Byte) : Memory :=
  let rest := m.filter fun c => c.1 ≠ x
  if v = 0 then rest else Memory.place (x, v) rest

/-- Sets consecutive bytes from an address upward. -/
def Memory.writeList : Memory → Nat → List Byte → Memory
  | m, _, [] => m
  | m, x, v :: vs => Memory.writeList (m.write x v) (x + 1) vs

/-- The canonical form: addresses strictly rising and in 0..255 (20_memory.md R50), no zero byte listed. -/
abbrev Memory.wf (m : Memory) : Prop :=
  List.Pairwise (fun c d : Host.Cell => c.1 < d.1) m ∧ ∀ c ∈ m, c.1 < 256 ∧ c.2 ≠ 0

end Sys2Proof.Machine
end

