-- ==== Sys2Proof/Machine/Ops.lean ====
section
/-! DEFINITION. The named operations over the state: registers, memory, stack, pc, output, halt, and taking a fault. -/

namespace Sys2Proof.Machine

/-- Reads general register `r` (00_scope.md R10). -/
def State.reg (s : State) (r : Reg) : Byte := s.regs[r.val]'r.isLt

/-- Writes general register `r`; the byte type takes the value modulo 256 (10_state.md R21). -/
def State.setReg (s : State) (r : Reg) (v : Byte) : State := { s with regs := s.regs.set r.val v r.isLt }

/-- The stack pointer is register 7 (10_state.md R23; 90_conflicts.md C1). -/
def spReg : Reg := 7

/-- Reads the stack pointer. -/
def State.sp (s : State) : Byte := s.reg spReg

/-- `sp <- (sp - 1) mod 256` (42_stack.md R160, R162). -/
def State.decSp (s : State) : State := s.setReg spReg (s.sp - 1)

/-- `sp <- (sp + 1) mod 256` (42_stack.md R163, R162). -/
def State.incSp (s : State) : State := s.setReg spReg (s.sp + 1)

/-- The byte the memory array holds at an address (20_memory.md R50). -/
def State.byteAt (s : State) (x : Nat) : Byte := s.mem.read x

/-- Sets the byte the memory array holds at an address (20_memory.md R50). -/
def State.setByte (s : State) (x : Nat) (v : Byte) : State := { s with mem := s.mem.write x v }

/-- `MemRead(addr, 1)` (20_memory.md R51). -/
def State.memRead (s : State) (x : Nat) : Except Raised Byte :=
  if 255 < x then .error { kind := .outOfRange, info := x } else .ok (s.byteAt x)

/-- `MemWrite(addr, 1, v)` (20_memory.md R52). -/
def State.memWrite (s : State) (x : Nat) (v : Byte) : Except Raised State :=
  if 255 < x then .error { kind := .outOfRange, info := x } else .ok (s.setByte x v)

/-- Reads the cell the stack pointer addresses (42_stack.md R163, 43_control_transfer.md R183). -/
def State.readTop (s : State) : Except Raised Byte := s.memRead s.sp.toNat

/-- Writes the cell the stack pointer addresses (42_stack.md R160, R163, 43_control_transfer.md R180, R183). -/
def State.writeTop (s : State) (v : Byte) : Except Raised State := s.memWrite s.sp.toNat v

/-- The engine's pc advance after a handler that does not own pc: 1 plus the operand count (44_execution_loop.md R215).
The sum is kept in 9 bits, which it never exceeds in a step (10_state.md R29; log 3). -/
def State.advance (s : State) (operandCount : Nat) : State :=
  { s with pc := BitVec.ofNat 9 (s.pc.toNat + (1 + operandCount)) }

/-- `pc <- target` for a byte target (43_control_transfer.md R186). -/
def State.jumpTo (s : State) (target : Byte) : State := { s with pc := BitVec.ofNat 9 target.toNat }

/-- The return address of a 2-byte CALL, which must be a byte (43_control_transfer.md R180, R181). -/
def State.returnAddress (s : State) : Except Raised Byte :=
  let target := s.pc.toNat + 2
  if 255 < target then .error { kind := .outOfRange, info := target } else .ok (BitVec.ofNat 8 target)

/-- `FL <- v` (00_scope.md R10). -/
def State.setFl (s : State) (v : Byte) : State := { s with fl := v }

/-- `emit(v)`: appends to the output trace (10_state.md R27). -/
def State.emit (s : State) (v : Byte) : State := { s with output := s.output ++ [v] }

/-- `halt`: the run status becomes Halted (10_state.md R25). -/
def State.halt (s : State) : State := { s with status := .halted }

/-- Fault entry: the status becomes Faulted, the record is written with the instruction address, and nothing else
changes (60_exceptions.md R250). There is no return from it (R252). -/
def State.takeFault (s : State) (r : Raised) : State :=
  { s with status := .faulted, faultRecord := some { kind := r.kind, fpc := s.pc, info := r.info } }

/-- Ends a step begun in `s`: either every write of its phases takes effect, or a fault is entered from `s` itself, so
that no write of the faulting step survives (44_execution_loop.md R210, 60_exceptions.md R250). -/
def finish (s : State) (phases : Except Raised State) : Host.Outcome State Fault Refusal :=
  match phases with
  | .ok t => .next t
  | .error r => .next (s.takeFault r)

end Sys2Proof.Machine
end

