-- ==== Sys2Proof/Machine/Operands.lean ====
section
/-! DEFINITION. The operand forms: one register operand, two register operands, a register and an immediate. -/

namespace Sys2Proof.Machine

/-- Validates a register operand: the whole byte is the index (30_encoding.md R84, 44_execution_loop.md R214). -/
def regOperand (b : Byte) : Except Raised Reg :=
  if h : b.toNat < 8 then .ok ⟨b.toNat, h⟩ else .error { kind := .invalidRegister, info := b.toNat }

/-- A handler with one register operand, format F1R, or F2RI, whose immediate is never checked (30_encoding.md R85):
the operand is validated before the handler runs (44_execution_loop.md R214). -/
def withReg (a : Byte) (s : State) (handler : Reg → Except Raised State) : Host.Outcome State Fault Refusal :=
  finish s (regOperand a >>= handler)

/-- A handler with two register operands, format F2RR: `opA` is validated first (44_execution_loop.md R214). -/
def withRegs (a b : Byte) (s : State) (handler : Reg → Reg → Except Raised State) :
    Host.Outcome State Fault Refusal :=
  finish s (regOperand a >>= fun ra => regOperand b >>= fun rb => handler ra rb)

end Sys2Proof.Machine
end

