-- ==== Sys2Proof/Machine/Flags.lean ====
section
/-! DEFINITION. The flags register's three states and the comparison that sets it. -/

namespace Sys2Proof.Machine

/-- FL in the equal state: E is bit 0 (10_state.md R33; log 5). -/
def flEqual : Byte := 0x01

/-- FL in the greater-than state: G is bit 1 (10_state.md R33; log 5). -/
def flGreater : Byte := 0x02

/-- FL in the less-than state: L is bit 2 (10_state.md R33; log 5). -/
def flLess : Byte := 0x04

/-- `alu_cmp`: exactly one state, by unsigned comparison (40_alu.md R112). -/
def aluCmp (u v : Byte) : Byte :=
  if u = v then flEqual else if v.toNat < u.toNat then flGreater else flLess

/-- FL is the equal state, all that JEQ and JNE read of it (43_control_transfer.md R187, R190). -/
def State.isEqual (s : State) : Bool := s.fl = flEqual

end Sys2Proof.Machine
end

