-- ==== Sys2Proof/Machine/Alu.lean ====
section
/-! DEFINITION. The ALU and the ALU instructions ADD, MUL and CMP. -/

namespace Sys2Proof.Machine

/-- The operations the ALU is asked for; `other` is any operation outside the three (40_alu.md R110, R114). -/
inductive AluOp where
  /-- Addition. -/
  | add
  /-- Multiplication. -/
  | mul
  /-- Comparison. -/
  | cmp
  /-- An operation the ALU does not support; no instruction asks for one. -/
  | other (code : Byte)
  deriving DecidableEq, Repr

/-- `alu_add(u, v) = (u + v) mod 256` (40_alu.md R111). -/
def aluAdd (u v : Byte) : Byte := BitVec.ofNat 8 (u.toNat + v.toNat)

/-- `alu_mul(u, v) = (u * v) mod 256` (40_alu.md R113). -/
def aluMul (u v : Byte) : Byte := BitVec.ofNat 8 (u.toNat * v.toNat)

/-- `apply(op, a, b)`: both registers are read before any result is written; ADD and MUL write `x[a]`, CMP writes FL,
any other operation raises UnsupportedOperation (40_alu.md R110, R114). -/
def aluApply (op : AluOp) (a b : Reg) (s : State) : Except Raised State :=
  let u := s.reg a
  let v := s.reg b
  match op with
  | .add => .ok (s.setReg a (aluAdd u v))
  | .mul => .ok (s.setReg a (aluMul u v))
  | .cmp => .ok (s.setFl (aluCmp u v))
  | .other code => .error { kind := .unsupportedOperation, info := code.toNat }

/-- An ALU instruction: the ALU's operation on two register operands, then the pc advance (40_alu.md R120 to R123). -/
def aluInstr (op : AluOp) (a b : Byte) (s : State) : Host.Outcome State Fault Refusal :=
  withRegs a b s fun ra rb => do
    let t ← aluApply op ra rb s
    .ok (t.advance 2)

/-- ADD (40_alu.md R120). -/
def execAdd (a b : Byte) (s : State) : Host.Outcome State Fault Refusal := aluInstr .add a b s

/-- MUL (40_alu.md R121). -/
def execMul (a b : Byte) (s : State) : Host.Outcome State Fault Refusal := aluInstr .mul a b s

/-- CMP (40_alu.md R123). -/
def execCmp (a b : Byte) (s : State) : Host.Outcome State Fault Refusal := aluInstr .cmp a b s

end Sys2Proof.Machine
end

