-- ==== Sys2Proof/Machine/Control.lean ====
section
/-! DEFINITION. The control transfers CALL, RET, JMP, JEQ and JNE, which own pc for their step. -/

namespace Sys2Proof.Machine

/-- CALL: fault if the return address is no byte, push it, jump; the target is read after the decrement, so `CALL R7`
jumps to the decremented stack pointer (43_control_transfer.md R180, R181, R182; log 10, log 11). -/
def execCall (a : Byte) (s : State) : Host.Outcome State Fault Refusal :=
  withReg a s fun r => do
    let back ← s.returnAddress
    let s1 := s.decSp
    let s2 ← s1.writeTop back
    .ok (s2.jumpTo (s2.reg r))

/-- RET: pop into pc, clearing the popped cell (43_control_transfer.md R183, R184; log 12). -/
def execRet (s : State) : Host.Outcome State Fault Refusal :=
  finish s do
    let v ← s.readTop
    let s1 := s.jumpTo v
    let s2 ← s1.writeTop 0
    .ok s2.incSp

/-- A conditional jump: to the register's value if taken, else past this 2-byte instruction
(43_control_transfer.md R187, R190). -/
def jumpIf (taken : Bool) (r : Reg) (s : State) : State :=
  if taken then s.jumpTo (s.reg r) else s.advance 1

/-- JMP (43_control_transfer.md R185). -/
def execJmp (a : Byte) (s : State) : Host.Outcome State Fault Refusal :=
  withReg a s fun r => .ok (s.jumpTo (s.reg r))

/-- JEQ: taken if FL is the equal state; the operand is validated in every case (43_control_transfer.md R187, R189). -/
def execJeq (a : Byte) (s : State) : Host.Outcome State Fault Refusal :=
  withReg a s fun r => .ok (jumpIf s.isEqual r s)

/-- JNE: taken unless FL is the equal state (43_control_transfer.md R190, R189). -/
def execJne (a : Byte) (s : State) : Host.Outcome State Fault Refusal :=
  withReg a s fun r => .ok (jumpIf (!s.isEqual) r s)

end Sys2Proof.Machine
end

