-- ==== Sys2Proof/Machine/LoadIoHalt.lean ====
section
/-! DEFINITION. Load-immediate, output and halt: LDI, PRN and HLT. -/

namespace Sys2Proof.Machine

/-- HLT: the status becomes Halted, and pc advances by 1 (41_register_io_halt.md R146, R147; log 13). -/
def execHlt (s : State) : Host.Outcome State Fault Refusal := finish s (.ok (s.halt.advance 0))

/-- LDI (41_register_io_halt.md R140). -/
def execLdi (a imm : Byte) (s : State) : Host.Outcome State Fault Refusal :=
  withReg a s fun r => .ok ((s.setReg r imm).advance 2)

/-- PRN (41_register_io_halt.md R143). -/
def execPrn (a : Byte) (s : State) : Host.Outcome State Fault Refusal :=
  withReg a s fun r => .ok ((s.emit (s.reg r)).advance 1)

end Sys2Proof.Machine
end

