-- ==== Sys2Proof/Machine/Stack.lean ====
section
/-! DEFINITION. The stack instructions PUSH and POP. -/

namespace Sys2Proof.Machine

/-- PUSH: decrement, then write; the address and the value are both read after the decrement, so `PUSH R7` stores the
decremented stack pointer (42_stack.md R160, R161; log 11). -/
def execPush (a : Byte) (s : State) : Host.Outcome State Fault Refusal :=
  withReg a s fun r => do
    let s1 := s.decSp
    let s2 ← s1.writeTop (s1.reg r)
    .ok (s2.advance 1)

/-- POP: load the register, clear the cell the stack pointer then addresses, increment; each statement reads the
registers as the one before left them, so `POP R7` clears the cell the loaded byte addresses (42_stack.md R163, R164,
R165; log 11). -/
def execPop (a : Byte) (s : State) : Host.Outcome State Fault Refusal :=
  withReg a s fun r => do
    let v ← s.readTop
    let s1 := s.setReg r v
    let s2 ← s1.writeTop 0
    .ok (s2.incSp.advance 1)

end Sys2Proof.Machine
end

