-- ==== Sys2Proof/Syntax.lean ====
section
/-! DEFINITION. The instructions, one constructor per row of the opcode map (30_encoding.md R90). -/

namespace Sys2Proof

/-- An instruction with its operand bytes as fetched. A register operand is the whole operand byte (30_encoding.md
R84), so it may name no register; `WellFormed` says when it does, and the meaning raises the fault when it does not. -/
inductive Instr where
  /-- HLT, format F0 (41_register_io_halt.md R146). -/
  | hlt
  /-- LDI reg, imm, format F2RI (41_register_io_halt.md R140). -/
  | ldi (a imm : Byte)
  /-- PRN reg, format F1R (41_register_io_halt.md R143). -/
  | prn (a : Byte)
  /-- ADD regA, regB, format F2RR (40_alu.md R120). -/
  | add (a b : Byte)
  /-- MUL regA, regB, format F2RR (40_alu.md R121). -/
  | mul (a b : Byte)
  /-- PUSH reg, format F1R (42_stack.md R160). -/
  | push (a : Byte)
  /-- POP reg, format F1R (42_stack.md R163). -/
  | pop (a : Byte)
  /-- CALL reg, format F1R (43_control_transfer.md R180). -/
  | call (a : Byte)
  /-- RET, format F0 (43_control_transfer.md R183). -/
  | ret
  /-- CMP regA, regB, format F2RR (40_alu.md R123). -/
  | cmp (a b : Byte)
  /-- JMP reg, format F1R (43_control_transfer.md R185). -/
  | jmp (a : Byte)
  /-- JEQ reg, format F1R (43_control_transfer.md R187). -/
  | jeq (a : Byte)
  /-- JNE reg, format F1R (43_control_transfer.md R190). -/
  | jne (a : Byte)
  deriving DecidableEq, Repr

end Sys2Proof
end

