-- ==== Sys2Proof/WellFormed.lean ====
section
/-! DEFINITION. When an instruction is well formed: each register operand names a register. -/

namespace Sys2Proof

/-- The operand bytes that are register indices, in order (30_encoding.md R86); LDI's immediate is none. -/
def Instr.regOperands : Instr → List Byte
  | .hlt => []
  | .ldi a _ => [a]
  | .prn a => [a]
  | .add a b => [a, b]
  | .mul a b => [a, b]
  | .push a => [a]
  | .pop a => [a]
  | .call a => [a]
  | .ret => []
  | .cmp a b => [a, b]
  | .jmp a => [a]
  | .jeq a => [a]
  | .jne a => [a]

/-- Every register operand byte is in 0..7 (30_encoding.md R84, R92). -/
def WellFormed (i : Instr) : Bool := i.regOperands.all fun b => decide (b.toNat < 8)

end Sys2Proof
end

