-- ==== Sys2Proof/Decode.lean ====
section
/-! DEFINITION. Decoding bytes into an instruction and encoding an instruction into bytes. -/

namespace Sys2Proof

/-- Why a byte sequence is no instruction. -/
inductive DecodeError where
  /-- The first byte is not one of the 13 opcodes (30_encoding.md R91). -/
  | illegalOpcode (op : Byte)
  /-- The sequence ends before the instruction's byte number `missing` (0 is the opcode). -/
  | truncated (missing : Nat)
  deriving DecidableEq, Repr

/-- What an opcode's row of the dispatch table says of its operands (30_encoding.md R86, R90). -/
inductive Layout where
  /-- Format F0: no operand byte. -/
  | none (i : Instr)
  /-- Format F1R: one operand byte. -/
  | one (build : Byte → Instr)
  /-- Formats F2RR and F2RI: two operand bytes, `opA` first (30_encoding.md R87). -/
  | two (build : Byte → Byte → Instr)

/-- The dispatch table: the whole byte is matched (30_encoding.md R82, R90); every other byte is illegal (R91). -/
def dispatchTable (op : Byte) : Option Layout :=
  match op.toNat with
  | 0b00000001 => some (.none .hlt)
  | 0b10000010 => some (.two .ldi)
  | 0b01000111 => some (.one .prn)
  | 0b10100000 => some (.two .add)
  | 0b10100010 => some (.two .mul)
  | 0b01000101 => some (.one .push)
  | 0b01000110 => some (.one .pop)
  | 0b01010000 => some (.one .call)
  | 0b00010001 => some (.none .ret)
  | 0b10100111 => some (.two .cmp)
  | 0b01010100 => some (.one .jmp)
  | 0b01010101 => some (.one .jeq)
  | 0b01010110 => some (.one .jne)
  | _ => Option.none

/-- Takes the operand bytes a layout asks for from the bytes after the opcode; `missing` in the error is the number of
the first byte that is not there. -/
def takeOperands : Layout → List Byte → Except DecodeError (Instr × List Byte)
  | .none i, rest => .ok (i, rest)
  | .one build, a :: rest => .ok (build a, rest)
  | .one _, [] => .error (.truncated 1)
  | .two build, a :: b :: rest => .ok (build a b, rest)
  | .two _, [_] => .error (.truncated 2)
  | .two _, [] => .error (.truncated 1)

/-- The instruction at the head of a byte sequence and the bytes after it. The opcode is looked up before any operand
byte is taken (44_execution_loop.md R212). -/
def decode : List Byte → Except DecodeError (Instr × List Byte)
  | [] => .error (.truncated 0)
  | op :: rest =>
    match dispatchTable op with
    | Option.none => .error (.illegalOpcode op)
    | some layout => takeOperands layout rest

/-- The opcode byte of each instruction (30_encoding.md R90, the hex column). -/
def Instr.opcode : Instr → Byte
  | .hlt => 0x01
  | .ldi _ _ => 0x82
  | .prn _ => 0x47
  | .add _ _ => 0xA0
  | .mul _ _ => 0xA2
  | .push _ => 0x45
  | .pop _ => 0x46
  | .call _ => 0x50
  | .ret => 0x11
  | .cmp _ _ => 0xA7
  | .jmp _ => 0x54
  | .jeq _ => 0x55
  | .jne _ => 0x56

/-- The operand bytes of each instruction, `opA` first (30_encoding.md R86, R87). -/
def Instr.operands : Instr → List Byte
  | .hlt => []
  | .ldi a imm => [a, imm]
  | .prn a => [a]
  | .add a b => [a, b]
  | .mul a b => [a, b]
  | .push a => [a]
  | .pop a => [a]
  | .call a => [a]
  | .ret => []
  | .cmp a b => [a, b]
  | .jmp a => [a]
  | .jeq a => [a]
  | .jne a => [a]

/-- The bytes of an instruction, the opcode at the lowest address (30_encoding.md R80, R86). -/
def encode (i : Instr) : List Byte := i.opcode :: i.operands

/-- The three bytes of an instruction numbered as the opcode table numbers its bits: byte `k` is bits `8k+7..8k`, and
every bit from `nbits` up is 0. Three bytes is the longest instruction (30_encoding.md R80). -/
def tableBytes (nbits w : Nat) : List Byte :=
  let v := w % 2 ^ nbits
  [BitVec.ofNat 8 v, BitVec.ofNat 8 (v / 256), BitVec.ofNat 8 (v / 65536)]

/-- The instruction the decoder reads from an instruction whose table bits are `w`. -/
def decodeTableWord (nbits w : Nat) : Option Instr :=
  match decode (tableBytes nbits w) with
  | .ok (i, _) => some i
  | .error _ => Option.none

end Sys2Proof
end

