-- ==== Sys2Proof/Machine/Fetch.lean ====
section
/-! DEFINITION. Fetching and decoding the instruction at the program counter. -/

namespace Sys2Proof.Machine

/-- The bytes of memory from an address up, at most `n`, none past address 255 (20_memory.md R50). -/
def State.bytesFrom (s : State) : Nat → Nat → List Byte
  | _, 0 => []
  | x, n + 1 => if 255 < x then [] else s.byteAt x :: s.bytesFrom (x + 1) n

/-- The fault a failed decode raises for the instruction at `pc`: an unknown opcode is an IllegalInstruction
(44_execution_loop.md R212), a byte missing past address 255 is an OutOfRange fetch of its address (R211, R213). -/
def raisedBy (pc : PC) (e : DecodeError) : Raised :=
  match e with
  | .illegalOpcode op => { kind := .illegalInstruction, info := op.toNat }
  | .truncated missing => { kind := .outOfRange, info := pc.toNat + missing }

/-- Phases 1 to 3 of a step: fetch the opcode, look it up, fetch its operand bytes (44_execution_loop.md R210). -/
def State.fetch (s : State) : Except Raised Instr :=
  match decode (s.bytesFrom s.pc.toNat 3) with
  | .ok (i, _) => .ok i
  | .error e => .error (raisedBy s.pc e)

/-- Stores bytes from the program counter up, dropping what would lie past address 255, and leaves the engine running
so that the next step fetches them: the host's stand-in for a loaded program (log 14). -/
def State.placeAtPc (s : State) (bs : List Byte) : State :=
  { s with
    mem := s.mem.writeList s.pc.toNat (bs.take (256 - s.pc.toNat))
    status := .running
    faultRecord := none }

end Sys2Proof.Machine
end

