-- ==== Sys2Proof/Machine/Step.lean ====
section
/-! DEFINITION. One step of the engine, and the host's way to place the next instruction. -/

namespace Sys2Proof.Machine

/-- One step (44_execution_loop.md R210). A step exists only while the status is Running: in Halted and Faulted the
state no longer changes (R217; log 4). -/
def step (s : State) : Host.Outcome State Fault Refusal :=
  match s.status with
  | .running =>
    match s.fetch with
    | .ok i => exec i s
    | .error r => finish s (.error r)
  | .halted => .next s
  | .faulted => .next s

/-- The instruction whose table bits are `w`, stored where the next step fetches it (log 14). -/
def State.withFetchWord (s : State) (nbits w : Nat) : State := s.placeAtPc (tableBytes nbits w)

end Sys2Proof.Machine
end

