-- ==== Sys2Proof/Machine/HostPort.lean ====
section
/-! DEFINITION. The host's side of the boundary: the load port and the status port. -/

namespace Sys2Proof.Machine

/-- The load port (60_exceptions.md R262, 70_reset_and_hazards.md R283): the program's bytes go to `M[0]` upward. More
than 256 bytes is a load error, and the CORE is not started (R284). -/
def State.load (s : State) (program : List Byte) : Host.Outcome State Fault Refusal :=
  if program.length ≤ 256 then .next { s with mem := s.mem.writeList 0 program } else .fault .loadTooLong

/-- The start of a run: reset, then load, before the first step (44_execution_loop.md R218). -/
def boot (c : Config) (program : List Byte) : Host.Outcome State Fault Refusal := (State.resetWith c).load program

/-- The fault codes the host reads (60_exceptions.md R240; log 6). -/
def FaultKind.code : FaultKind → Nat
  | .outOfRange => 1
  | .invalidRegister => 2
  | .illegalInstruction => 3
  | .unsupportedOperation => 4

/-- What the status port gives the host (60_exceptions.md R261). -/
structure StatusReport where
  /-- The run status, at any time. -/
  status : RunStatus
  /-- Code, instruction address and offending value, when Faulted. -/
  fault : Option (Nat × PC × Nat)
  /-- The whole state, once stopped. -/
  state : Option State
  deriving DecidableEq, Repr

/-- The status port (60_exceptions.md R260, R261): reading it changes nothing. -/
def State.statusReport (s : State) : StatusReport :=
  let record := s.faultRecord.map fun r => (r.kind.code, r.fpc, r.info)
  match s.status with
  | .running => { status := .running, fault := none, state := none }
  | .halted => { status := .halted, fault := none, state := some s }
  | .faulted => { status := .faulted, fault := record, state := some s }

end Sys2Proof.Machine
end

