-- ==== Sys2Proof/Safety.lean ====
section
/-! DEFINITION. The terms in which claims about the machine are stated. -/

namespace Sys2Proof.Machine

/-- The operand byte `b` names register `r`: the whole byte is the index (30_encoding.md R84). -/
abbrev Names (b : Byte) (r : Reg) : Prop := b.toNat = r.val

/-- Every register outside `rs` is unchanged. -/
abbrev SameRegsBut (rs : List Reg) (s t : State) : Prop := ∀ r, r ∉ rs → t.reg r = s.reg r

/-- Every memory cell outside `xs` is unchanged. -/
abbrev SameBytesBut (xs : List Nat) (s t : State) : Prop := ∀ x, x ∉ xs → t.byteAt x = s.byteAt x

/-- The run status and the fault record are unchanged. -/
abbrev SameRun (s t : State) : Prop := t.status = s.status ∧ t.faultRecord = s.faultRecord

/-- A run's successful end: only Halted counts (44_execution_loop.md R218). -/
abbrev CleanEnd (s : State) : Prop := s.status = .halted

/-- `s` with the fault `k` taken at its instruction address and nothing else changed (60_exceptions.md R250). -/
def State.faultedWith (s : State) (k : FaultKind) (info : Nat) : State :=
  { s with status := .faulted, faultRecord := some { kind := k, fpc := s.pc, info := info } }

/-- The 13 opcode bytes of the opcode map (30_encoding.md R90). -/
def legalOpcodes : List Byte :=
  [0x01, 0x82, 0x47, 0xA0, 0xA2, 0x45, 0x46, 0x50, 0x11, 0xA7, 0x54, 0x55, 0x56]

/-- The instructions that own pc for their step (44_execution_loop.md R215). -/
def ownsPc : Instr → Bool
  | .call _ => true
  | .ret => true
  | .jmp _ => true
  | .jeq _ => true
  | .jne _ => true
  | .hlt => false
  | .ldi _ _ => false
  | .prn _ => false
  | .add _ _ => false
  | .mul _ _ => false
  | .push _ => false
  | .pop _ => false
  | .cmp _ _ => false

/-- The table of register writes (10_state.md R24). -/
def mayWriteReg : Instr → Reg → Prop
  | .ldi a _, r => Names a r
  | .add a _, r => Names a r
  | .mul a _, r => Names a r
  | .push _, r => r = 7
  | .pop a, r => Names a r ∨ r = 7
  | .call _, r => r = 7
  | .ret, r => r = 7
  | .hlt, _ => False
  | .prn _, _ => False
  | .cmp _ _, _ => False
  | .jmp _, _ => False
  | .jeq _, _ => False
  | .jne _, _ => False

/-- The cell an instruction stores to when it runs in `s` (20_memory.md R69): below the stack pointer for PUSH and CALL,
at it for RET and POP; after `POP R7` has loaded register 7, the cell the loaded byte addresses (42_stack.md R164). -/
def storeAddress (s : State) : Instr → Option Nat
  | .push _ => some (s.sp - 1).toNat
  | .call _ => some (s.sp - 1).toNat
  | .pop a => some (if Names a 7 then (s.byteAt s.sp.toNat).toNat else s.sp.toNat)
  | .ret => some s.sp.toNat
  | .hlt => none
  | .ldi _ _ => none
  | .prn _ => none
  | .add _ _ => none
  | .mul _ _ => none
  | .cmp _ _ => none
  | .jmp _ => none
  | .jeq _ => none
  | .jne _ => none

/-- What a fault record can hold (60_exceptions.md R240 to R244): the out-of-range address is 256, since a step that
would fetch address 257 has already faulted at 256 (log 21); an invalid register index is 8..255; an illegal opcode is a
byte outside the opcode map; UnsupportedOperation is never recorded. -/
def FaultRecord.Sound (r : FaultRecord) : Prop :=
  match r.kind with
  | .outOfRange => r.info = 256
  | .invalidRegister => 8 ≤ r.info ∧ r.info ≤ 255
  | .illegalInstruction => r.info ≤ 255 ∧ BitVec.ofNat 8 r.info ∉ legalOpcodes
  | .unsupportedOperation => False

/-- The machine's invariant: memory in its canonical form (20_memory.md R50), `pc` in 0..256 (10_state.md R29), FL zero
or exactly one of its three states (R33), and a fault record exactly when Faulted (R26), sound, with the address `pc`
still holds (60_exceptions.md R250). -/
structure Inv (s : State) : Prop where
  /-- The memory is canonical. -/
  memory : s.mem.wf
  /-- The program counter is at most 256. -/
  pcRange : s.pc.toNat ≤ 256
  /-- FL is 0, E, G or L. -/
  flags : s.fl = 0x00 ∨ s.fl = 0x01 ∨ s.fl = 0x02 ∨ s.fl = 0x04
  /-- A record is held exactly in Faulted. -/
  recorded : s.faultRecord.isSome = true ↔ s.status = .faulted
  /-- A held record is sound and names the instruction at `pc`. -/
  record : ∀ r, s.faultRecord = some r → r.fpc = s.pc ∧ r.Sound

/-- The fault a running machine's step raises, read off the priority list of 60_exceptions.md R246: the first that
applies, with its `info`; `none` if none applies. The operand count is the opcode's bits 7:6 (30_encoding.md R81), and
only LDI's second operand is no register (R86). -/
def firstFault (s : State) : Option (FaultKind × Nat) :=
  let p := s.pc.toNat
  let op := s.byteAt p
  let n := op.toNat / 64
  let opA := s.byteAt (p + 1)
  let opB := s.byteAt (p + 2)
  if 255 < p then some (.outOfRange, p)
  else if op ∉ legalOpcodes then some (.illegalInstruction, op.toNat)
  else if 1 ≤ n ∧ 255 < p + 1 then some (.outOfRange, p + 1)
  else if 2 ≤ n ∧ 255 < p + 2 then some (.outOfRange, p + 2)
  else if 1 ≤ n ∧ 7 < opA.toNat then some (.invalidRegister, opA.toNat)
  else if 2 ≤ n ∧ op ≠ 0x82 ∧ 7 < opB.toNat then some (.invalidRegister, opB.toNat)
  else if op = 0x50 ∧ p = 254 then some (.outOfRange, 256)
  else none

end Sys2Proof.Machine
end

