-- ==== Sys2Proof/Certificates/Slice0/Obligations.lean ====
section
/-! DEFINITION. The statements for the provers, read from the numbered rules of spec/. -/

open Sys2Proof Sys2Proof.Machine

/-! ### Encoding -/

/-- 30_encoding.md R80, R86, R90: a byte sequence decodes to `i` with `rest` left over exactly when it is the encoding
of `i` followed by `rest`, for every instruction and every operand byte. -/
def Obligations.DecodesExactlyTheEncodings : Prop :=
  ∀ (bs : List Byte) (i : Instr) (rest : List Byte), decode bs = .ok (i, rest) ↔ bs = encode i ++ rest

/-- 30_encoding.md R90 (opcode map) and R87 (operand order, derived by the spec): each row's bytes, written out. -/
def Obligations.OpcodeMapRowsDecode : Prop :=
  ∀ (a b : Byte) (rest : List Byte),
    decode (0b00000001 :: rest) = .ok (.hlt, rest) ∧
    decode (0b10000010 :: a :: b :: rest) = .ok (.ldi a b, rest) ∧
    decode (0b01000111 :: a :: rest) = .ok (.prn a, rest) ∧
    decode (0b10100000 :: a :: b :: rest) = .ok (.add a b, rest) ∧
    decode (0b10100010 :: a :: b :: rest) = .ok (.mul a b, rest) ∧
    decode (0b01000101 :: a :: rest) = .ok (.push a, rest) ∧
    decode (0b01000110 :: a :: rest) = .ok (.pop a, rest) ∧
    decode (0b01010000 :: a :: rest) = .ok (.call a, rest) ∧
    decode (0b00010001 :: rest) = .ok (.ret, rest) ∧
    decode (0b10100111 :: a :: b :: rest) = .ok (.cmp a b, rest) ∧
    decode (0b01010100 :: a :: rest) = .ok (.jmp a, rest) ∧
    decode (0b01010101 :: a :: rest) = .ok (.jeq a, rest) ∧
    decode (0b01010110 :: a :: rest) = .ok (.jne a, rest)

/-- 30_encoding.md R91: the decoder rejects an opcode byte as illegal exactly when it is not in the opcode map. -/
def Obligations.UnlistedOpcodesRejected : Prop :=
  ∀ (op : Byte) (rest : List Byte), decode (op :: rest) = .error (.illegalOpcode op) ↔ op ∉ legalOpcodes

/-- 30_encoding.md R80: an instruction is 1 to 3 bytes long, and its opcode byte alone fixes how many. -/
def Obligations.OpcodeAloneFixesLength : Prop :=
  (∀ i : Instr, 1 ≤ (encode i).length ∧ (encode i).length ≤ 3) ∧
  ∀ i j : Instr, (encode i).head? = (encode j).head? → (encode i).length = (encode j).length

/-- 30_encoding.md section 1 (R81, the spec's derivation): bits 7:6 of a legal opcode are the number of operand bytes
the decoder takes. -/
def Obligations.HighBitsGiveOperandCount : Prop :=
  ∀ (op : Byte) (rest tail : List Byte) (i : Instr),
    decode (op :: rest) = .ok (i, tail) → rest.length = op.toNat / 64 + tail.length

/-! ### The step runs the decoded instruction -/

/-- 44_execution_loop.md section 1: a running machine whose bytes at pc, all in 0..255, decode to `i` steps exactly as
`exec i`; the step adds nothing around it. -/
def Obligations.StepRunsDecodedInstruction : Prop :=
  ∀ (s : State) (i : Instr) (bs : List Byte), s.status = .running →
    s.pc.toNat + bs.length ≤ 256 →
    (∀ k (h : k < bs.length), s.byteAt (s.pc.toNat + k) = bs[k]) →
    decode bs = .ok (i, []) → step s = exec i s

/-- The model refuses and stops on nothing: every instruction and every step answers a next state, since the entry of a
fault of the CORE is one (60_exceptions.md section 3; log 18), and a stopped machine keeps its state (log 4). -/
def Obligations.EveryStepAnswersNext : Prop :=
  (∀ (i : Instr) (s : State), ∃ t, exec i s = .next t) ∧ ∀ s : State, ∃ t, step s = .next t

/-! ### Load-immediate, output, halt -/

/-- 41_register_io_halt.md R140: LDI's encoding, its effect and frame, and its one fault of its own operands:
InvalidRegister(opA) if opA is above 7, whatever the immediate. -/
def Obligations.LdiLoadsImmediate : Prop :=
  ∀ (a imm : Byte) (s : State),
    encode (.ldi a imm) = [0b10000010, a, imm] ∧
    (∀ r, Names a r → ∃ t, exec (.ldi a imm) s = .next t ∧ t.reg r = imm ∧ t.pc = s.pc + 3 ∧
      SameRegsBut [r] s t ∧ SameBytesBut [] s t ∧ t.fl = s.fl ∧ t.output = s.output ∧ SameRun s t) ∧
    (7 < a.toNat → ∃ t, exec (.ldi a imm) s = .next t ∧ t.status = .faulted ∧
      t.faultRecord = some { kind := .invalidRegister, fpc := s.pc, info := a.toNat })

/-- 41_register_io_halt.md R143: PRN's encoding, its effect and frame; a PRN in a faulting step emits nothing. -/
def Obligations.PrnAppendsRegister : Prop :=
  ∀ (a : Byte) (s : State),
    encode (.prn a) = [0b01000111, a] ∧
    (∀ r, Names a r → ∃ t, exec (.prn a) s = .next t ∧ t.output = s.output ++ [s.reg r] ∧ t.pc = s.pc + 2 ∧
      SameRegsBut [] s t ∧ SameBytesBut [] s t ∧ t.fl = s.fl ∧ SameRun s t) ∧
    (7 < a.toNat → ∃ t, exec (.prn a) s = .next t ∧ t.status = .faulted ∧ t.output = s.output)

/-- 41_register_io_halt.md section on HLT: the status becomes Halted, nothing else but pc changes, and the next step
changes nothing. The final pc is left out: the spec's decision D13 says that a claim should not depend on it (log 13). -/
def Obligations.HltStopsTheRun : Prop :=
  ∀ s : State, ∃ t, exec .hlt s = .next t ∧ CleanEnd t ∧ SameRegsBut [] s t ∧ SameBytesBut [] s t ∧
    t.fl = s.fl ∧ t.output = s.output ∧ t.faultRecord = s.faultRecord ∧ step t = .next t

/-- 41_register_io_halt.md R144: only PRN appends to the output trace, one byte for each; a step never removes or
reorders an entry; LDI r,v followed by PRN r appends v. -/
def Obligations.OutputGrowsOnlyByPrn : Prop :=
  (∀ (i : Instr) (s t : State), exec i s = .next t → (∀ a, i ≠ .prn a) → t.output = s.output) ∧
  (∀ (a : Byte) (r : Reg) (s : State), Names a r →
    ∃ t, exec (.prn a) s = .next t ∧ t.output = s.output ++ [s.reg r]) ∧
  (∀ s t : State, step s = .next t → ∃ emitted, t.output = s.output ++ emitted ∧ emitted.length ≤ 1) ∧
  (∀ (a v : Byte) (r : Reg) (s : State), Names a r →
    ∃ t u, exec (.ldi a v) s = .next t ∧ exec (.prn a) t = .next u ∧ u.output = s.output ++ [v])

/-- 60_exceptions.md section 5 (output port): no step reads the output trace, so earlier output changes nothing in what
a step does. -/
def Obligations.OutputIsNeverRead : Prop :=
  ∀ (s t : State) (earlier : List Byte), step s = .next t →
    step { s with output := earlier ++ s.output } = .next { t with output := earlier ++ t.output }

/-! ### ALU -/

/-- 40_alu.md R120, R111: ADD's encoding, its effect modulo 256, both registers read before the write, no flag, no
exception once the operands are valid, and its frame. -/
def Obligations.AddWrapsModulo256 : Prop :=
  ∀ (a b : Byte) (ra rb : Reg) (s : State), Names a ra → Names b rb →
    encode (.add a b) = [0b10100000, a, b] ∧
    ∃ t, exec (.add a b) s = .next t ∧
      (t.reg ra).toNat = ((s.reg ra).toNat + (s.reg rb).toNat) % 256 ∧ t.pc = s.pc + 3 ∧
      SameRegsBut [ra] s t ∧ SameBytesBut [] s t ∧ t.fl = s.fl ∧ t.output = s.output ∧ SameRun s t

/-- 40_alu.md R121, R113: MUL's encoding, the low 8 bits of the exact product, and its frame; the high bits go nowhere. -/
def Obligations.MulKeepsLowByte : Prop :=
  ∀ (a b : Byte) (ra rb : Reg) (s : State), Names a ra → Names b rb →
    encode (.mul a b) = [0b10100010, a, b] ∧
    ∃ t, exec (.mul a b) s = .next t ∧
      (t.reg ra).toNat = ((s.reg ra).toNat * (s.reg rb).toNat) % 256 ∧ t.pc = s.pc + 3 ∧
      SameRegsBut [ra] s t ∧ SameBytesBut [] s t ∧ t.fl = s.fl ∧ t.output = s.output ∧ SameRun s t

/-- 40_alu.md sections 1 and 2 (CMP): FL becomes exactly one of its three states by unsigned comparison, nothing else
but pc changes. The values 1, 2 and 4 are the spec's decision D5 (log 5). -/
def Obligations.CmpSetsOneFlagState : Prop :=
  ∀ (a b : Byte) (ra rb : Reg) (s : State), Names a ra → Names b rb →
    ∃ t, exec (.cmp a b) s = .next t ∧
      (t.fl = 0x01 ↔ s.reg ra = s.reg rb) ∧
      (t.fl = 0x02 ↔ (s.reg rb).toNat < (s.reg ra).toNat) ∧
      (t.fl = 0x04 ↔ (s.reg ra).toNat < (s.reg rb).toNat) ∧
      t.pc = s.pc + 3 ∧ SameRegsBut [] s t ∧ SameBytesBut [] s t ∧ t.output = s.output ∧ SameRun s t

/-- 10_state.md R34: only CMP writes FL, and only JEQ and JNE read it: with another FL, every other instruction leaves
the same state but for FL. -/
def Obligations.OnlyCmpWritesAndJumpsReadFlags : Prop :=
  (∀ (i : Instr) (s t : State), exec i s = .next t → (∀ a b, i ≠ .cmp a b) → t.fl = s.fl) ∧
  (∀ (i : Instr) (s t : State) (f : Byte), exec i s = .next t → (∀ a, i ≠ .jeq a) → (∀ a, i ≠ .jne a) →
    ∃ g, exec i { s with fl := f } = .next { t with fl := g })

/-- 60_exceptions.md R244: the ALU answers UnsupportedOperation for an operation outside ADD, MUL and CMP, and no step
of a running machine ever records it. -/
def Obligations.UnsupportedOperationUnreachable : Prop :=
  (∀ (code : Byte) (ra rb : Reg) (s : State),
    aluApply (.other code) ra rb s = .error { kind := .unsupportedOperation, info := code.toNat }) ∧
  (∀ (s t : State) (r : FaultRecord), s.status = .running → step s = .next t → t.status = .faulted →
    t.faultRecord = some r → r.kind ≠ .unsupportedOperation)

/-! ### Stack -/

/-- 42_stack.md section 1 (PUSH, R7 by the spec's decision D11, log 11): sp is decremented modulo 256, the register as
it stands after the decrement is stored at the new sp, and nothing else but pc changes. -/
def Obligations.PushStoresBelow : Prop :=
  ∀ (a : Byte) (r : Reg) (s : State), Names a r →
    ∃ t, exec (.push a) s = .next t ∧ t.sp = s.sp - 1 ∧
      t.byteAt (s.sp - 1).toNat = (if r = 7 then s.sp - 1 else s.reg r) ∧
      SameRegsBut [7] s t ∧ SameBytesBut [(s.sp - 1).toNat] s t ∧ t.pc = s.pc + 2 ∧
      t.fl = s.fl ∧ t.output = s.output ∧ SameRun s t

/-- 42_stack.md section 1 (POP into a register other than R7): the popped byte is loaded, its cell is cleared, sp is
incremented modulo 256, and nothing else but pc changes. -/
def Obligations.PopLoadsAndClears : Prop :=
  ∀ (a : Byte) (r : Reg) (s : State), Names a r → r ≠ 7 →
    ∃ t, exec (.pop a) s = .next t ∧ t.reg r = s.byteAt s.sp.toNat ∧ t.sp = s.sp + 1 ∧
      t.byteAt s.sp.toNat = 0 ∧
      SameRegsBut [r, 7] s t ∧ SameBytesBut [s.sp.toNat] s t ∧ t.pc = s.pc + 2 ∧
      t.fl = s.fl ∧ t.output = s.output ∧ SameRun s t

/-- 42_stack.md section 1 (POP R7, the spec's decision D11, log 11): with the popped byte v, the cell cleared is v's,
not the popped one, and register 7 ends at v + 1. -/
def Obligations.PopR7ClearsTheLoadedAddress : Prop :=
  ∀ (a : Byte) (s : State), Names a 7 →
    ∃ t, exec (.pop a) s = .next t ∧ t.sp = s.byteAt s.sp.toNat + 1 ∧
      t.byteAt (s.byteAt s.sp.toNat).toNat = 0 ∧
      SameRegsBut [7] s t ∧ SameBytesBut [(s.byteAt s.sp.toNat).toNat] s t ∧ t.pc = s.pc + 2 ∧
      t.fl = s.fl ∧ t.output = s.output ∧ SameRun s t

/-- 42_stack.md section 2 (R168, the spec's derivation): PUSH r then POP r2, neither of them R7, copies the register,
restores sp and leaves the stack cell cleared, whatever it held. -/
def Obligations.PopUndoesPush : Prop :=
  ∀ (a b : Byte) (r r2 : Reg) (s : State), Names a r → Names b r2 → r ≠ 7 → r2 ≠ 7 →
    ∃ t u, exec (.push a) s = .next t ∧ exec (.pop b) t = .next u ∧
      u.reg r2 = s.reg r ∧ u.sp = s.sp ∧ u.byteAt (s.sp - 1).toNat = 0 ∧
      SameRegsBut [r2] s u ∧ SameBytesBut [(s.sp - 1).toNat] s u

/-- 70_reset_and_hazards.md section 3 and 20_memory.md section 4 (the spec's derivations): a byte PUSH writes over the
next instruction's opcode is what the very next step fetches; an illegal one faults there. That the kind is
IllegalInstruction at addresses 254 and 255 too is the spec's decision D7 (log 7, unsafe there), and that the faulting step
changes nothing else its decision D9 (log 9); no claim about a program should distinguish the kinds at such an address
(93_implementation_defined.md U12). -/
def Obligations.PushedByteIsFetchedNext : Prop :=
  ∀ (a : Byte) (r : Reg) (s : State), Names a r → r ≠ 7 → s.status = .running →
    (s.sp - 1).toNat = s.pc.toNat + 2 → s.reg r ∉ legalOpcodes →
    ∃ t, exec (.push a) s = .next t ∧
      step t = .next (t.faultedWith .illegalInstruction (s.reg r).toNat)

/-! ### Control transfer -/

/-- 43_control_transfer.md section 1 (CALL, its R7 form by the spec's decision D11, log 11): below address 254 the
return address pc + 2 is pushed and pc becomes the register as it stands after the decrement. -/
def Obligations.CallPushesReturnAddress : Prop :=
  ∀ (a : Byte) (r : Reg) (s : State), Names a r → s.pc.toNat ≤ 253 →
    ∃ t, exec (.call a) s = .next t ∧ t.sp = s.sp - 1 ∧
      (t.byteAt (s.sp - 1).toNat).toNat = s.pc.toNat + 2 ∧
      t.pc.toNat = (if r = 7 then s.sp - 1 else s.reg r).toNat ∧
      SameRegsBut [7] s t ∧ SameBytesBut [(s.sp - 1).toNat] s t ∧
      t.fl = s.fl ∧ t.output = s.output ∧ SameRun s t

/-- 43_control_transfer.md section 1 (the spec's decisions D10 and, for what is left unwritten, D9; log 10, 9): a CALL whose return address is above 255, at
address 254 the address 256, raises OutOfRange of it and writes nothing else. -/
def Obligations.CallWithoutByteReturnFaults : Prop :=
  ∀ (a : Byte) (r : Reg) (s : State), Names a r → 254 ≤ s.pc.toNat →
    exec (.call a) s = .next (s.faultedWith .outOfRange (s.pc.toNat + 2))

/-- 43_control_transfer.md section 1 (RET, its clearing by the spec's decision D12, log 12): pc becomes the popped byte,
the popped cell is cleared, sp is incremented modulo 256, and nothing else changes. -/
def Obligations.RetPopsIntoPc : Prop :=
  ∀ s : State, ∃ t, exec .ret s = .next t ∧ t.pc.toNat = (s.byteAt s.sp.toNat).toNat ∧
    t.byteAt s.sp.toNat = 0 ∧ t.sp = s.sp + 1 ∧
    SameRegsBut [7] s t ∧ SameBytesBut [s.sp.toNat] s t ∧
    t.fl = s.fl ∧ t.output = s.output ∧ SameRun s t

/-- 43_control_transfer.md section 1: a RET right after a CALL comes back to pc + 2 with every register as before the
CALL and the return-address cell cleared (the clearing is the spec's decision D12, log 12). -/
def Obligations.RetUndoesCall : Prop :=
  ∀ (a : Byte) (r : Reg) (s : State), Names a r → s.pc.toNat ≤ 253 →
    ∃ t u, exec (.call a) s = .next t ∧ exec .ret t = .next u ∧ u.pc = s.pc + 2 ∧
      SameRegsBut [] s u ∧ u.byteAt (s.sp - 1).toNat = 0 ∧ SameBytesBut [(s.sp - 1).toNat] s u

/-- 43_control_transfer.md R185: JMP's encoding and effect; pc becomes the register's value and nothing else changes. -/
def Obligations.JmpGoesToRegister : Prop :=
  ∀ (a : Byte) (r : Reg) (s : State), Names a r →
    encode (.jmp a) = [0b01010100, a] ∧
    ∃ t, exec (.jmp a) s = .next t ∧ t.pc.toNat = (s.reg r).toNat ∧
      SameRegsBut [] s t ∧ SameBytesBut [] s t ∧ t.fl = s.fl ∧ t.output = s.output ∧ SameRun s t

/-- 43_control_transfer.md section 2 (JEQ): pc becomes the register's value if FL is the equal state, else pc + 2, and
nothing else changes. The value 1 of that state is the spec's decision D5 (log 5). -/
def Obligations.JeqJumpsOnEqual : Prop :=
  ∀ (a : Byte) (r : Reg) (s : State), Names a r →
    ∃ t, exec (.jeq a) s = .next t ∧
      (s.fl = 0x01 → t.pc.toNat = (s.reg r).toNat) ∧ (s.fl ≠ 0x01 → t.pc = s.pc + 2) ∧
      SameRegsBut [] s t ∧ SameBytesBut [] s t ∧ t.fl = s.fl ∧ t.output = s.output ∧ SameRun s t

/-- 43_control_transfer.md section 2 (JNE): pc becomes the register's value unless FL is the equal state, else pc + 2,
and nothing else changes. The value 1 of that state is the spec's decision D5 (log 5). -/
def Obligations.JneJumpsUnlessEqual : Prop :=
  ∀ (a : Byte) (r : Reg) (s : State), Names a r →
    ∃ t, exec (.jne a) s = .next t ∧
      (s.fl ≠ 0x01 → t.pc.toNat = (s.reg r).toNat) ∧ (s.fl = 0x01 → t.pc = s.pc + 2) ∧
      SameRegsBut [] s t ∧ SameBytesBut [] s t ∧ t.fl = s.fl ∧ t.output = s.output ∧ SameRun s t

/-- 43_control_transfer.md section 2 (R191, the spec's derivation): after a CMP, JEQ branches exactly if the compared
registers were equal and JNE exactly if they were not; no flag value is named. -/
def Obligations.CompareDecidesTheJumps : Prop :=
  ∀ (a b c : Byte) (ra rb rc : Reg) (s : State), Names a ra → Names b rb → Names c rc →
    ∃ t u v, exec (.cmp a b) s = .next t ∧ exec (.jeq c) t = .next u ∧ exec (.jne c) t = .next v ∧
      (s.reg ra = s.reg rb → u.pc.toNat = (s.reg rc).toNat ∧ v.pc = s.pc + 5) ∧
      (s.reg ra ≠ s.reg rb → u.pc = s.pc + 5 ∧ v.pc.toNat = (s.reg rc).toNat)

/-- 43_control_transfer.md section 2 (R188, the spec's derivation): FL is 0 at reset in every configuration, and in every
state whose FL is 0, as it stays until the first CMP (OnlyCmpWritesAndJumpsReadFlags), JEQ falls through to pc + 2 and JNE
branches. That 0 is not the equal state rests on the spec's decision D5 (log 5). -/
def Obligations.WhileFlagsZeroOnlyJneBranches : Prop :=
  (∀ c : Config, (State.resetWith c).fl = 0x00) ∧
  ∀ (a : Byte) (r : Reg) (s : State), Names a r → s.fl = 0x00 →
    ∃ t u, exec (.jeq a) s = .next t ∧ exec (.jne a) s = .next u ∧
      t.pc = s.pc + 2 ∧ u.pc.toNat = (s.reg r).toNat

/-- 43_control_transfer.md section 2 (R186, the spec's derivation): a control transfer with a valid operand, CALL below
254, leaves pc at a valid address. -/
def Obligations.TransfersStayInMemory : Prop :=
  ∀ (i : Instr) (s : State), ownsPc i = true → WellFormed i = true → s.pc.toNat ≤ 253 →
    ∃ t, exec i s = .next t ∧ t.pc.toNat ≤ 255

/-- 44_execution_loop.md section 1 (R215): a handler that does not own pc advances it by the instruction's length. For
HLT this is the spec's decision D13, on which no claim about a program should depend (log 13). -/
def Obligations.OtherHandlersAdvancePc : Prop :=
  ∀ (i : Instr) (s : State), ownsPc i = false → WellFormed i = true →
    ∃ t, exec i s = .next t ∧ t.pc = s.pc + BitVec.ofNat 9 (encode i).length

/-- 44_execution_loop.md section 2 (R219): a JMP to its own address never ends; any number of steps leaves the same
running state. -/
def Obligations.SelfJumpNeverEnds : Prop :=
  ∀ (s : State) (r : Reg), s.status = .running → s.pc.toNat ≤ 254 → s.byteAt s.pc.toNat = 0b01010100 →
    Names (s.byteAt (s.pc.toNat + 1)) r → (s.reg r).toNat = s.pc.toNat →
    ∀ k, Host.Core.run core k s = .next s

/-! ### Frames over all instructions -/

/-- 10_state.md section 1 (R24, the spec's derivation): a register changes only as the table of register writes says. -/
def Obligations.RegistersChangeByTheTable : Prop :=
  ∀ (i : Instr) (s t : State) (r : Reg), exec i s = .next t → t.reg r ≠ s.reg r → mayWriteReg i r

/-- 20_memory.md section 1 (R69, the spec's derivation): a cell changes only if it is the one the instruction stores
to; what POP and RET store is 0. -/
def Obligations.MemoryChangesByTheTable : Prop :=
  ∀ (i : Instr) (s t : State) (x : Nat), exec i s = .next t → t.byteAt x ≠ s.byteAt x →
    storeAddress s i = some x ∧ ((∃ a, i = .pop a) ∨ i = .ret → t.byteAt x = 0)

/-! ### Faults -/

/-- 60_exceptions.md section 1 (R242) and 44_execution_loop.md R214 (the spec's decisions D8 and, for what is
left unwritten, D9; log 8, 9): the first register operand above 7 raises InvalidRegister of it, in every instruction, a jump not taken included, and nothing else changes. -/
def Obligations.InvalidRegisterOperandFaults : Prop :=
  ∀ (i : Instr) (s : State) (b : Byte), i.regOperands.find? (fun b => 7 < b.toNat) = some b →
    exec i s = .next (s.faultedWith .invalidRegister b.toNat)

/-- 60_exceptions.md section 1 (R243): a running machine that fetches an opcode byte outside the opcode map becomes
Faulted with IllegalInstruction of that byte at its address, and no register, cell or output changes. That the kind is
IllegalInstruction at addresses 254 and 255 too, for a byte whose bits 7:6 ask for operands past 255, is the spec's
decision D7 (log 7, unsafe there), and that nothing is written its decision D9 (log 9); no claim about a program should
distinguish the kinds at such an address (93_implementation_defined.md U12). -/
def Obligations.IllegalOpcodeFaults : Prop :=
  ∀ s : State, s.status = .running → s.pc.toNat ≤ 255 → s.byteAt s.pc.toNat ∉ legalOpcodes →
    ∃ t, step s = .next t ∧ t.status = .faulted ∧ t.faultRecord =
      some { kind := .illegalInstruction, fpc := s.pc, info := (s.byteAt s.pc.toNat).toNat } ∧
      SameRegsBut [] s t ∧ SameBytesBut [] s t ∧ t.output = s.output

/-- 44_execution_loop.md R213: operand fetch reads exactly the bytes the opcode asks for; when they do not lie wholly in
0..255 the step raises OutOfRange of the first address past the end, which is 256. -/
def Obligations.OperandFetchStaysInMemory : Prop :=
  ∀ s : State, s.status = .running → s.pc.toNat ≤ 255 → s.byteAt s.pc.toNat ∈ legalOpcodes →
    let n := (s.byteAt s.pc.toNat).toNat / 64
    (s.pc.toNat + n ≤ 255 →
      ∃ i, s.fetch = .ok i ∧ encode i = (List.range (n + 1)).map fun k => s.byteAt (s.pc.toNat + k)) ∧
    (255 < s.pc.toNat + n →
      ∃ t, step s = .next t ∧ t.status = .faulted ∧
        t.faultRecord = some { kind := .outOfRange, fpc := s.pc, info := 256 })

/-- 44_execution_loop.md section 1 (R211, the spec's decisions D2 and, for what is left unwritten, D9; log 3, 9): an
opcode fetch past address 255 raises OutOfRange of it, and nothing else changes. -/
def Obligations.OpcodeFetchPastEndFaults : Prop :=
  ∀ s : State, s.status = .running → 255 < s.pc.toNat →
    step s = .next (s.faultedWith .outOfRange s.pc.toNat)

/-- 60_exceptions.md section 3 (R250, the spec's decision D9, log 9): a step that faults writes the status and the fault
record, with the instruction's address, and nothing else. -/
def Obligations.FaultsArePrecise : Prop :=
  ∀ s t : State, s.status = .running → step s = .next t → t.status = .faulted →
    ∃ k info, t = s.faultedWith k info

/-- 60_exceptions.md section 2 (R246, the spec's decisions D2, D7, D8, D10 and, for what is left unwritten, D9; log 3,
7, 8, 9, 10, and 21 for the address recorded): a running machine's step faults
exactly when the priority list names a fault, with the first one it names; otherwise it completes unfaulted. -/
def Obligations.StepFaultsInPriorityOrder : Prop :=
  ∀ s : State, s.status = .running →
    (∀ k info, firstFault s = some (k, info) → step s = .next (s.faultedWith k info)) ∧
    (firstFault s = none → ∃ t, step s = .next t ∧ t.status ≠ .faulted ∧ t.faultRecord = s.faultRecord)

/-- 44_execution_loop.md section 1 (R217): once Halted or Faulted, any number of steps leaves the state as it is. That a
step of a stopped machine is a next state at all is the model's choice (log 4). -/
def Obligations.StoppedMachineNeverChanges : Prop :=
  ∀ (s : State) (k : Nat), s.status ≠ .running → Host.Core.run core k s = .next s

/-- 60_exceptions.md section 5 (R261, with the codes of the spec's decision D6, log 6): the status port reports the run
status, the record with its code exactly when Faulted, and the whole state once stopped. -/
def Obligations.StatusPortReports : Prop :=
  ∀ s : State, s.statusReport.status = s.status ∧
    (s.status ≠ .faulted → s.statusReport.fault = none) ∧
    (∀ (k : FaultKind) (fpc : PC) (info : Nat), s.status = .faulted →
      s.faultRecord = some { kind := k, fpc := fpc, info := info } →
      s.statusReport.fault = some ((match k with
        | .outOfRange => 1
        | .invalidRegister => 2
        | .illegalInstruction => 3
        | .unsupportedOperation => 4), fpc, info)) ∧
    (s.statusReport.state = if s.status = .running then none else some s)

/-! ### Reset, load, memory, and the invariant -/

/-- 10_state.md R39: the reset value of every piece of state, for every `REG_INIT` and `SP_INIT`. -/
def Obligations.ResetState : Prop :=
  ∀ c : Config, (∀ x, (State.resetWith c).byteAt x = 0) ∧
    (∀ i : Fin 7, (State.resetWith c).reg i.castSucc = c.regInit[i]) ∧
    (State.resetWith c).reg 7 = c.spInit ∧ (State.resetWith c).pc = 0 ∧ (State.resetWith c).fl = 0x00 ∧
    (State.resetWith c).status = .running ∧ (State.resetWith c).faultRecord = none ∧
    (State.resetWith c).output = []

/-- 70_reset_and_hazards.md R283: a load of at most 256 bytes puts each byte at its address from 0, leaves every other
cell at its reset value 0, and touches no other state. -/
def Obligations.LoadPlacesTheProgram : Prop :=
  ∀ (c : Config) (program : List Byte), program.length ≤ 256 →
    ∃ t, boot c program = .next t ∧
      (∀ k (h : k < program.length), t.byteAt k = program[k]) ∧
      (∀ x, program.length ≤ x → t.byteAt x = 0) ∧
      SameRegsBut [] (State.resetWith c) t ∧ t.pc = 0 ∧ t.fl = 0x00 ∧ t.status = .running ∧
      t.faultRecord = none ∧ t.output = []

/-- 70_reset_and_hazards.md section 2 (R284, the spec's decision D18, log 14): a program of more than 256 bytes is a
load error and has no run. -/
def Obligations.LongProgramIsLoadError : Prop :=
  ∀ (c : Config) (program : List Byte), 256 < program.length → boot c program = .fault .loadTooLong

/-- 20_memory.md R52: a write in 0..255 sets its cell, changes no other cell and no other state; a write past 255 raises
OutOfRange of the address. -/
def Obligations.MemWriteSetsOneCell : Prop :=
  ∀ (s : State) (x : Nat) (v : Byte),
    (x ≤ 255 → ∃ t, s.memWrite x v = .ok t ∧ t.memRead x = .ok v ∧ SameBytesBut [x] s t ∧
      SameRegsBut [] s t ∧ t.pc = s.pc ∧ t.fl = s.fl ∧ t.output = s.output ∧ SameRun s t) ∧
    (255 < x → s.memWrite x v = .error { kind := .outOfRange, info := x })

/-- 20_memory.md section 1 (R50) and log 15: two memories in canonical form that read alike at every address are the
same data. -/
def Obligations.CanonicalMemoryIsUnique : Prop :=
  ∀ m m' : Memory, m.wf → m'.wf → (∀ x, m.read x = m'.read x) → m = m'

/-- The machine's invariant (`Inv`) holds at reset, for every `REG_INIT` and `SP_INIT`. -/
def Obligations.InvariantHoldsAtReset : Prop := Inv State.reset ∧ ∀ c : Config, Inv (State.resetWith c)

/-- The machine's invariant holds at the start of every run, after the load (70_reset_and_hazards.md section 2). -/
def Obligations.InvariantHoldsAfterLoad : Prop :=
  ∀ (c : Config) (program : List Byte) (t : State), boot c program = .next t → Inv t

/-- Every step keeps the machine's invariant: canonical memory, pc in 0..256, FL zero or one of its three states, a
sound fault record exactly when Faulted, naming the instruction pc still addresses. -/
def Obligations.StepKeepsInvariant : Prop := ∀ s t : State, Inv s → step s = .next t → Inv t
end

