-- ==== Sys2Proof/Laws/State.lean ====
section
/-! SUPPORT. What each field reads after each named update of the state. -/

namespace Sys2Proof.Machine

variable (s : State)

@[simp] theorem setReg_pc (r : Reg) (v : Byte) : (s.setReg r v).pc = s.pc := rfl
@[simp] theorem setReg_fl (r : Reg) (v : Byte) : (s.setReg r v).fl = s.fl := rfl
@[simp] theorem setReg_status (r : Reg) (v : Byte) : (s.setReg r v).status = s.status := rfl
@[simp] theorem setReg_faultRecord (r : Reg) (v : Byte) : (s.setReg r v).faultRecord = s.faultRecord := rfl
@[simp] theorem setReg_mem (r : Reg) (v : Byte) : (s.setReg r v).mem = s.mem := rfl
@[simp] theorem setReg_output (r : Reg) (v : Byte) : (s.setReg r v).output = s.output := rfl

@[simp] theorem setByte_regs (x : Nat) (v : Byte) : (s.setByte x v).regs = s.regs := rfl
@[simp] theorem setByte_pc (x : Nat) (v : Byte) : (s.setByte x v).pc = s.pc := rfl
@[simp] theorem setByte_fl (x : Nat) (v : Byte) : (s.setByte x v).fl = s.fl := rfl
@[simp] theorem setByte_status (x : Nat) (v : Byte) : (s.setByte x v).status = s.status := rfl
@[simp] theorem setByte_faultRecord (x : Nat) (v : Byte) : (s.setByte x v).faultRecord = s.faultRecord := rfl
@[simp] theorem setByte_mem (x : Nat) (v : Byte) : (s.setByte x v).mem = s.mem.write x v := rfl
@[simp] theorem setByte_output (x : Nat) (v : Byte) : (s.setByte x v).output = s.output := rfl

@[simp] theorem advance_regs (n : Nat) : (s.advance n).regs = s.regs := rfl
@[simp] theorem advance_pc (n : Nat) : (s.advance n).pc = s.pc + BitVec.ofNat 9 (1 + n) := by
  simp [State.advance, BitVec.ofNat_add]
@[simp] theorem advance_fl (n : Nat) : (s.advance n).fl = s.fl := rfl
@[simp] theorem advance_status (n : Nat) : (s.advance n).status = s.status := rfl
@[simp] theorem advance_faultRecord (n : Nat) : (s.advance n).faultRecord = s.faultRecord := rfl
@[simp] theorem advance_mem (n : Nat) : (s.advance n).mem = s.mem := rfl
@[simp] theorem advance_output (n : Nat) : (s.advance n).output = s.output := rfl

@[simp] theorem jumpTo_regs (v : Byte) : (s.jumpTo v).regs = s.regs := rfl
@[simp] theorem jumpTo_pc (v : Byte) : (s.jumpTo v).pc = BitVec.ofNat 9 v.toNat := rfl
@[simp] theorem jumpTo_fl (v : Byte) : (s.jumpTo v).fl = s.fl := rfl
@[simp] theorem jumpTo_status (v : Byte) : (s.jumpTo v).status = s.status := rfl
@[simp] theorem jumpTo_faultRecord (v : Byte) : (s.jumpTo v).faultRecord = s.faultRecord := rfl
@[simp] theorem jumpTo_mem (v : Byte) : (s.jumpTo v).mem = s.mem := rfl
@[simp] theorem jumpTo_output (v : Byte) : (s.jumpTo v).output = s.output := rfl

@[simp] theorem setFl_regs (v : Byte) : (s.setFl v).regs = s.regs := rfl
@[simp] theorem setFl_pc (v : Byte) : (s.setFl v).pc = s.pc := rfl
@[simp] theorem setFl_fl (v : Byte) : (s.setFl v).fl = v := rfl
@[simp] theorem setFl_status (v : Byte) : (s.setFl v).status = s.status := rfl
@[simp] theorem setFl_faultRecord (v : Byte) : (s.setFl v).faultRecord = s.faultRecord := rfl
@[simp] theorem setFl_mem (v : Byte) : (s.setFl v).mem = s.mem := rfl
@[simp] theorem setFl_output (v : Byte) : (s.setFl v).output = s.output := rfl

@[simp] theorem emit_regs (v : Byte) : (s.emit v).regs = s.regs := rfl
@[simp] theorem emit_pc (v : Byte) : (s.emit v).pc = s.pc := rfl
@[simp] theorem emit_fl (v : Byte) : (s.emit v).fl = s.fl := rfl
@[simp] theorem emit_status (v : Byte) : (s.emit v).status = s.status := rfl
@[simp] theorem emit_faultRecord (v : Byte) : (s.emit v).faultRecord = s.faultRecord := rfl
@[simp] theorem emit_mem (v : Byte) : (s.emit v).mem = s.mem := rfl
@[simp] theorem emit_output (v : Byte) : (s.emit v).output = s.output ++ [v] := rfl

@[simp] theorem halt_regs : (s.halt).regs = s.regs := rfl
@[simp] theorem halt_pc : (s.halt).pc = s.pc := rfl
@[simp] theorem halt_fl : (s.halt).fl = s.fl := rfl
@[simp] theorem halt_status : (s.halt).status = .halted := rfl
@[simp] theorem halt_faultRecord : (s.halt).faultRecord = s.faultRecord := rfl
@[simp] theorem halt_mem : (s.halt).mem = s.mem := rfl
@[simp] theorem halt_output : (s.halt).output = s.output := rfl

@[simp] theorem takeFault_regs (f : Raised) : (s.takeFault f).regs = s.regs := rfl
@[simp] theorem takeFault_pc (f : Raised) : (s.takeFault f).pc = s.pc := rfl
@[simp] theorem takeFault_fl (f : Raised) : (s.takeFault f).fl = s.fl := rfl
@[simp] theorem takeFault_status (f : Raised) : (s.takeFault f).status = .faulted := rfl
@[simp] theorem takeFault_faultRecord (f : Raised) :
    (s.takeFault f).faultRecord = some { kind := f.kind, fpc := s.pc, info := f.info } := rfl
@[simp] theorem takeFault_mem (f : Raised) : (s.takeFault f).mem = s.mem := rfl
@[simp] theorem takeFault_output (f : Raised) : (s.takeFault f).output = s.output := rfl

/-- A register reads the value last written to it; every other register is unchanged. -/
theorem reg_setReg (r q : Reg) (v : Byte) : (s.setReg r v).reg q = if q = r then v else s.reg q := by
  simp only [State.reg, State.setReg, Vector.getElem_set]
  by_cases h : q = r
  · simp [h]
  · rw [if_neg fun e => h (Fin.ext e.symm), if_neg h]

@[simp] theorem reg_setReg_self (r : Reg) (v : Byte) : (s.setReg r v).reg r = v := by simp [reg_setReg]

@[simp] theorem reg_setReg_ne {r q : Reg} (v : Byte) (h : q ≠ r) : (s.setReg r v).reg q = s.reg q := by
  simp [reg_setReg, h]

@[simp] theorem reg_setByte (x : Nat) (v : Byte) (q : Reg) : (s.setByte x v).reg q = s.reg q := rfl
@[simp] theorem reg_advance (n : Nat) (q : Reg) : (s.advance n).reg q = s.reg q := rfl
@[simp] theorem reg_jumpTo (v : Byte) (q : Reg) : (s.jumpTo v).reg q = s.reg q := rfl
@[simp] theorem reg_setFl (v : Byte) (q : Reg) : (s.setFl v).reg q = s.reg q := rfl
@[simp] theorem reg_emit (v : Byte) (q : Reg) : (s.emit v).reg q = s.reg q := rfl
@[simp] theorem reg_halt (q : Reg) : (s.halt).reg q = s.reg q := rfl
@[simp] theorem reg_takeFault (f : Raised) (q : Reg) : (s.takeFault f).reg q = s.reg q := rfl

@[simp] theorem byteAt_setReg (r : Reg) (v : Byte) (y : Nat) : (s.setReg r v).byteAt y = s.byteAt y := rfl
@[simp] theorem byteAt_advance (n : Nat) (y : Nat) : (s.advance n).byteAt y = s.byteAt y := rfl
@[simp] theorem byteAt_jumpTo (v : Byte) (y : Nat) : (s.jumpTo v).byteAt y = s.byteAt y := rfl
@[simp] theorem byteAt_setFl (v : Byte) (y : Nat) : (s.setFl v).byteAt y = s.byteAt y := rfl
@[simp] theorem byteAt_emit (v : Byte) (y : Nat) : (s.emit v).byteAt y = s.byteAt y := rfl
@[simp] theorem byteAt_halt (y : Nat) : (s.halt).byteAt y = s.byteAt y := rfl
@[simp] theorem byteAt_takeFault (f : Raised) (y : Nat) : (s.takeFault f).byteAt y = s.byteAt y := rfl

/-- The stack pointer is register 7. -/
theorem sp_eq : s.sp = s.reg 7 := rfl

@[simp] theorem sp_setByte (x : Nat) (v : Byte) : (s.setByte x v).sp = s.sp := rfl
@[simp] theorem sp_advance (n : Nat) : (s.advance n).sp = s.sp := rfl
@[simp] theorem sp_jumpTo (v : Byte) : (s.jumpTo v).sp = s.sp := rfl
@[simp] theorem sp_setFl (v : Byte) : (s.setFl v).sp = s.sp := rfl
@[simp] theorem sp_emit (v : Byte) : (s.emit v).sp = s.sp := rfl
@[simp] theorem sp_halt : (s.halt).sp = s.sp := rfl
@[simp] theorem sp_takeFault (f : Raised) : (s.takeFault f).sp = s.sp := rfl

/-- Writing register 7 sets the stack pointer; writing another leaves it. -/
theorem sp_setReg (r : Reg) (v : Byte) : (s.setReg r v).sp = if r = 7 then v else s.sp := by
  by_cases h : r = 7
  · subst h; simp [sp_eq]
  · simp [sp_eq, h, Ne.symm h]

/-- Decrementing the stack pointer writes register 7 alone. -/
theorem decSp_eq : s.decSp = s.setReg 7 (s.sp - 1) := rfl

/-- Incrementing the stack pointer writes register 7 alone. -/
theorem incSp_eq : s.incSp = s.setReg 7 (s.sp + 1) := rfl

/-- A jump to a byte leaves exactly that byte in pc. -/
@[simp] theorem jumpTo_pc_toNat (v : Byte) : (s.jumpTo v).pc.toNat = v.toNat := by
  have := v.isLt
  simp; omega

/-- Two states with equal registers, one by one, and equal other fields are equal. -/
theorem state_ext {s t : State} (regs : ∀ r, t.reg r = s.reg r) (pc : t.pc = s.pc) (fl : t.fl = s.fl)
    (status : t.status = s.status) (record : t.faultRecord = s.faultRecord) (mem : t.mem = s.mem)
    (output : t.output = s.output) : t = s := by
  have hr : t.regs = s.regs := Vector.ext fun i h => regs ⟨i, h⟩
  cases s; cases t; simp_all

end Sys2Proof.Machine
end

