-- ==== Sys2Proof/Laws/Memory.lean ====
section
/-! SUPPORT. The laws of the memory array: read after write, and that every operation keeps the canonical form. -/

namespace Sys2Proof.Machine

/-- Removing the entries of one address leaves every other address as it was. -/
theorem read_filter_ne (m : Memory) {x y : Nat} (h : y ≠ x) :
    Memory.read (m.filter fun c => c.1 ≠ x) y = m.read y := by
  induction m with
  | nil => rfl
  | cons c m ih =>
    by_cases hc : c.1 = x
    · simp_all [Memory.read, Ne.symm h]
    · by_cases hy : c.1 = y <;> simp_all [Memory.read]

/-- With its entries removed an address reads as 0. -/
theorem read_filter_self (m : Memory) (x : Nat) : Memory.read (m.filter fun c => c.1 ≠ x) x = 0 := by
  induction m with
  | nil => rfl
  | cons c m ih => by_cases hc : c.1 = x <;> simp_all [Memory.read]

/-- Placing a cell of an address without entries sets that address alone. -/
theorem read_place (m : Memory) (c : Host.Cell) (y : Nat) (h : ∀ d ∈ m, d.1 ≠ c.1) :
    (Memory.place c m).read y = if y = c.1 then c.2 else m.read y := by
  induction m with
  | nil => by_cases hy : y = c.1 <;> simp [Memory.place, Memory.read, hy, eq_comm]
  | cons d m ih =>
    have hd := h d (by simp)
    have ih := ih fun e he => h e (by simp [he])
    by_cases hlt : c.1 < d.1
    · by_cases hy : y = c.1
      · simp [Memory.place, Memory.read, hlt, hy]
      · simp [Memory.place, Memory.read, hlt, hy, Ne.symm hy]
    · by_cases hy : y = c.1
      · subst hy
        simpa only [Memory.place, if_neg hlt, Memory.read, if_neg hd] using ih
      · simp only [Memory.place, if_neg hlt, Memory.read, ih, if_neg hy]

/-- Reading after a write, in any memory whatever its form. -/
theorem read_write (m : Memory) (x y : Nat) (v : Byte) :
    (m.write x v).read y = if y = x then v else m.read y := by
  have hf : ∀ d ∈ m.filter (fun c => c.1 ≠ x), d.1 ≠ x := by simp [List.mem_filter]
  by_cases hv : v = 0
  · by_cases hy : y = x
    · simp only [Memory.write, if_pos hv, hy, read_filter_self, if_true]; exact hv.symm
    · simp only [Memory.write, if_pos hv, if_neg hy, read_filter_ne m hy]
  · simp only [Memory.write, if_neg hv, read_place _ (x, v) y hf]
    by_cases hy : y = x
    · simp [hy]
    · simp only [if_neg hy, read_filter_ne m hy]

/-- The cells after placing one are that one and the old ones. -/
theorem mem_place (m : Memory) (c d : Host.Cell) : d ∈ Memory.place c m ↔ d = c ∨ d ∈ m := by
  induction m with
  | nil => simp [Memory.place]
  | cons e m ih =>
    by_cases h : c.1 < e.1
    · simp [Memory.place, h]
    · simp only [Memory.place, if_neg h, List.mem_cons, ih]; tauto

/-- Placing a cell of a new address keeps addresses strictly rising. -/
theorem place_rising (m : Memory) (c : Host.Cell) (hm : m.Pairwise fun a b => a.1 < b.1)
    (hc : ∀ d ∈ m, d.1 ≠ c.1) : (Memory.place c m).Pairwise fun a b => a.1 < b.1 := by
  induction m with
  | nil => simp [Memory.place]
  | cons e m ih =>
    obtain ⟨he, hm⟩ := List.pairwise_cons.mp hm
    by_cases h : c.1 < e.1
    · simp only [Memory.place, if_pos h, List.pairwise_cons, List.mem_cons]
      exact ⟨by rintro d (rfl | hd); exacts [h, h.trans (he d hd)], he, hm⟩
    · simp only [Memory.place, if_neg h, List.pairwise_cons, mem_place]
      have hne := hc e (by simp)
      exact ⟨by rintro d (rfl | hd); exacts [by omega, he d hd], ih hm fun d hd => hc d (by simp [hd])⟩

/-- A write in 0..255 keeps the canonical form. -/
theorem write_wf {m : Memory} {x : Nat} (v : Byte) (hm : m.wf) (hx : x < 256) : (m.write x v).wf := by
  have hf : Memory.wf (m.filter fun c => c.1 ≠ x) :=
    ⟨hm.1.filter _, fun c hc => hm.2 c (List.mem_filter.mp hc).1⟩
  by_cases hv : v = 0
  · simpa only [Memory.write, if_pos hv] using hf
  · simp only [Memory.write, if_neg hv]
    refine ⟨place_rising _ _ hf.1 (by simp [List.mem_filter]), fun c hc => ?_⟩
    rcases (mem_place _ _ _).mp hc with rfl | hc
    exacts [⟨hx, hv⟩, hf.2 c hc]

/-- Writing consecutive bytes that end at or before address 255 keeps the canonical form. -/
theorem writeList_wf {m : Memory} {x : Nat} (vs : List Byte) (hm : m.wf) (hx : x + vs.length ≤ 256) :
    (m.writeList x vs).wf := by
  induction vs generalizing m x with
  | nil => exact hm
  | cons v vs ih =>
    simp only [List.length_cons] at hx
    exact ih (write_wf v hm (by omega)) (by omega)

/-- Writing consecutive bytes leaves every address outside them as it was. -/
theorem read_writeList_outside (m : Memory) (x y : Nat) (vs : List Byte) (h : y < x ∨ x + vs.length ≤ y) :
    (m.writeList x vs).read y = m.read y := by
  induction vs generalizing m x with
  | nil => rfl
  | cons v vs ih =>
    simp only [List.length_cons] at h
    rw [Memory.writeList, ih _ _ (by omega), read_write, if_neg (by omega)]

/-- Writing consecutive bytes puts byte `k` at the `k`-th address. -/
theorem read_writeList_at (m : Memory) (x k : Nat) (vs : List Byte) (h : k < vs.length) :
    (m.writeList x vs).read (x + k) = vs[k] := by
  induction vs generalizing m x k with
  | nil => simp at h
  | cons v vs ih =>
    cases k with
    | zero => rw [Memory.writeList, read_writeList_outside _ _ _ _ (by omega), read_write]; simp
    | succ k =>
      simp only [List.length_cons] at h
      rw [Memory.writeList, show x + (k + 1) = (x + 1) + k by omega, ih _ _ _ (by omega)]
      simp

/-- Reset memory has the canonical form. -/
theorem reset_mem_wf (c : Config) : (State.resetWith c).mem.wf := by simp [State.resetWith, Memory.wf]

/-- The byte read after setting one. -/
theorem byteAt_setByte (s : State) (x y : Nat) (v : Byte) :
    (s.setByte x v).byteAt y = if y = x then v else s.byteAt y := read_write s.mem x y v

@[simp] theorem byteAt_setByte_self (s : State) (x : Nat) (v : Byte) : (s.setByte x v).byteAt x = v := by
  simp [byteAt_setByte]

end Sys2Proof.Machine
end

