-- ==== Sys2Proof/Laws/Ops.lean ====
section
/-! SUPPORT. One lemma for each shared operation that says everything it can answer. -/

namespace Sys2Proof.Machine

/-- MemRead in range answers the cell's byte. -/
theorem memRead_inRange (s : State) {x : Nat} (h : x ≤ 255) : s.memRead x = .ok (s.byteAt x) := by
  simp [State.memRead, h]

/-- MemRead out of range raises OutOfRange of the address. -/
theorem memRead_outOfRange (s : State) {x : Nat} (h : 255 < x) :
    s.memRead x = .error { kind := .outOfRange, info := x } := by simp [State.memRead, h]

/-- Reading the top of the stack never faults: the stack pointer is a byte (42_stack.md R162). -/
@[simp] theorem readTop_eq (s : State) : s.readTop = .ok (s.byteAt s.sp.toNat) :=
  memRead_inRange s (by have := s.sp.isLt; omega)

/-- Writing the top of the stack never faults. -/
@[simp] theorem writeTop_eq (s : State) (v : Byte) : s.writeTop v = .ok (s.setByte s.sp.toNat v) := by
  have := s.sp.isLt
  simp [State.writeTop, State.memWrite, show s.sp.toNat ≤ 255 by omega]

/-- A CALL below address 254 has the byte pc + 2 for its return address. -/
theorem returnAddress_byte (s : State) (h : s.pc.toNat ≤ 253) :
    s.returnAddress = .ok (BitVec.ofNat 8 (s.pc.toNat + 2)) := by
  simp [State.returnAddress, show s.pc.toNat + 2 ≤ 255 by omega]

/-- A CALL from address 254 up has no byte for its return address. -/
theorem returnAddress_outOfRange (s : State) (h : 254 ≤ s.pc.toNat) :
    s.returnAddress = .error { kind := .outOfRange, info := s.pc.toNat + 2 } := by
  simp [State.returnAddress, show 255 < s.pc.toNat + 2 by omega]

/-- Phases that complete give their state. -/
@[simp] theorem finish_ok (s t : State) : finish s (.ok t) = .next t := rfl

/-- Phases that raise give the fault's entry from the state the step began in. -/
@[simp] theorem finish_error (s : State) (f : Raised) : finish s (.error f) = .next (s.takeFault f) := rfl

/-- All that the end of a step can answer: the state its phases gave, or a fault's entry. -/
theorem finish_next {s t : State} {phases : Except Raised State} (h : finish s phases = .next t) :
    phases = .ok t ∨ ∃ f, phases = .error f ∧ t = s.takeFault f := by
  cases phases with
  | ok u => simp at h; exact .inl (by rw [h])
  | error f => simp at h; exact .inr ⟨f, rfl, h.symm⟩

/-- A register operand that is an index of a register is that register. -/
theorem regOperand_valid {b : Byte} {r : Reg} (h : b.toNat = r.val) : regOperand b = .ok r := by
  simp [regOperand, h]

/-- A register operand above 7 raises InvalidRegister of it. -/
theorem regOperand_invalid {b : Byte} (h : 7 < b.toNat) :
    regOperand b = .error { kind := .invalidRegister, info := b.toNat } := by
  simp [regOperand, show ¬ b.toNat < 8 by omega]

/-- All that a register operand can be: valid, or above 7. -/
theorem regOperand_cases (b : Byte) :
    (∃ r : Reg, b.toNat = r.val ∧ regOperand b = .ok r) ∨
      (7 < b.toNat ∧ regOperand b = .error { kind := .invalidRegister, info := b.toNat }) := by
  by_cases h : b.toNat < 8
  · exact .inl ⟨⟨b.toNat, h⟩, rfl, by simp [regOperand, h]⟩
  · exact .inr ⟨by omega, regOperand_invalid (by omega)⟩

/-- With a valid operand the handler runs on its register. -/
theorem withReg_valid {a : Byte} {r : Reg} (s : State) (handler : Reg → Except Raised State)
    (h : a.toNat = r.val) : withReg a s handler = finish s (handler r) := by
  simp [withReg, regOperand_valid h, bind, Except.bind]

/-- With an operand above 7 the handler does not run. -/
theorem withReg_invalid {a : Byte} (s : State) (handler : Reg → Except Raised State) (h : 7 < a.toNat) :
    withReg a s handler = .next (s.takeFault { kind := .invalidRegister, info := a.toNat }) := by
  simp [withReg, regOperand_invalid h, bind, Except.bind]

/-- With two valid operands the handler runs on their registers. -/
theorem withRegs_valid {a b : Byte} {ra rb : Reg} (s : State) (handler : Reg → Reg → Except Raised State)
    (ha : a.toNat = ra.val) (hb : b.toNat = rb.val) : withRegs a b s handler = finish s (handler ra rb) := by
  simp [withRegs, regOperand_valid ha, regOperand_valid hb, bind, Except.bind]

/-- A first operand above 7 is reported, whatever the second. -/
theorem withRegs_invalid_first {a : Byte} (b : Byte) (s : State) (handler : Reg → Reg → Except Raised State)
    (h : 7 < a.toNat) :
    withRegs a b s handler = .next (s.takeFault { kind := .invalidRegister, info := a.toNat }) := by
  simp [withRegs, regOperand_invalid h, bind, Except.bind]

/-- A second operand above 7 is reported after a valid first one. -/
theorem withRegs_invalid_second {a b : Byte} {ra : Reg} (s : State) (handler : Reg → Reg → Except Raised State)
    (ha : a.toNat = ra.val) (hb : 7 < b.toNat) :
    withRegs a b s handler = .next (s.takeFault { kind := .invalidRegister, info := b.toNat }) := by
  simp [withRegs, regOperand_valid ha, regOperand_invalid hb, bind, Except.bind]

/-- All that one register operand and its handler can answer. -/
theorem withReg_next {a : Byte} {s t : State} {handler : Reg → Except Raised State}
    (h : withReg a s handler = .next t) :
    (∃ r : Reg, a.toNat = r.val ∧ finish s (handler r) = .next t) ∨
      (7 < a.toNat ∧ t = s.takeFault { kind := .invalidRegister, info := a.toNat }) := by
  rcases regOperand_cases a with ⟨r, ha, -⟩ | ⟨ha, -⟩
  · exact .inl ⟨r, ha, by rwa [withReg_valid s handler ha] at h⟩
  · rw [withReg_invalid s handler ha] at h
    exact .inr ⟨ha, by simpa using h.symm⟩

/-- All that two register operands and their handler can answer. -/
theorem withRegs_next {a b : Byte} {s t : State} {handler : Reg → Reg → Except Raised State}
    (h : withRegs a b s handler = .next t) :
    (∃ ra rb : Reg, a.toNat = ra.val ∧ b.toNat = rb.val ∧ finish s (handler ra rb) = .next t) ∨
      ∃ c, (c = a ∨ c = b) ∧ 7 < c.toNat ∧ t = s.takeFault { kind := .invalidRegister, info := c.toNat } := by
  rcases regOperand_cases a with ⟨ra, ha, -⟩ | ⟨ha, -⟩
  · rcases regOperand_cases b with ⟨rb, hb, -⟩ | ⟨hb, -⟩
    · exact .inl ⟨ra, rb, ha, hb, by rwa [withRegs_valid s handler ha hb] at h⟩
    · rw [withRegs_invalid_second s handler ha hb] at h
      exact .inr ⟨b, .inr rfl, hb, by simpa using h.symm⟩
  · rw [withRegs_invalid_first b s handler ha] at h
    exact .inr ⟨a, .inl rfl, ha, by simpa using h.symm⟩

/-- The ALU's comparison is one of the three states of FL. -/
theorem aluCmp_cases (u v : Byte) :
    (u = v ∧ aluCmp u v = flEqual) ∨ (v.toNat < u.toNat ∧ aluCmp u v = flGreater) ∨
      (u.toNat < v.toNat ∧ aluCmp u v = flLess) := by
  by_cases h : u = v
  · exact .inl ⟨h, by simp [aluCmp, h]⟩
  · have hne : u.toNat ≠ v.toNat := fun e => h (BitVec.eq_of_toNat_eq e)
    by_cases hg : v.toNat < u.toNat
    · exact .inr (.inl ⟨hg, by simp [aluCmp, h, hg]⟩)
    · exact .inr (.inr ⟨by omega, by simp [aluCmp, h, hg]⟩)

/-- All that the host's load can answer. -/
theorem load_next {s t : State} {program : List Byte} (h : s.load program = .next t) :
    program.length ≤ 256 ∧ t = { s with mem := s.mem.writeList 0 program } := by
  unfold State.load at h
  split at h
  · exact ⟨‹_›, by simpa using h.symm⟩
  · simp at h

end Sys2Proof.Machine
end

