-- ==== Sys2Proof/Laws/Exec.lean ====
section
/-! SUPPORT. What an instruction can do, said once: its completed form, or the fault it enters. -/

namespace Sys2Proof.Machine

/-- The state an instruction run in `s` completes in, one form for each instruction, in the named updates. -/
inductive Completed (s : State) : Instr → State → Prop where
  | hlt : Completed s .hlt (s.halt.advance 0)
  | ldi {a imm : Byte} {r : Reg} (h : a.toNat = r.val) : Completed s (.ldi a imm) ((s.setReg r imm).advance 2)
  | prn {a : Byte} {r : Reg} (h : a.toNat = r.val) : Completed s (.prn a) ((s.emit (s.reg r)).advance 1)
  | add {a b : Byte} {ra rb : Reg} (ha : a.toNat = ra.val) (hb : b.toNat = rb.val) :
      Completed s (.add a b) ((s.setReg ra (aluAdd (s.reg ra) (s.reg rb))).advance 2)
  | mul {a b : Byte} {ra rb : Reg} (ha : a.toNat = ra.val) (hb : b.toNat = rb.val) :
      Completed s (.mul a b) ((s.setReg ra (aluMul (s.reg ra) (s.reg rb))).advance 2)
  | push {a : Byte} {r : Reg} (h : a.toNat = r.val) :
      Completed s (.push a) ((s.decSp.setByte (s.sp - 1).toNat (s.decSp.reg r)).advance 1)
  | pop {a : Byte} {r : Reg} (h : a.toNat = r.val) :
      Completed s (.pop a) (((s.setReg r (s.byteAt s.sp.toNat)).setByte
        (s.setReg r (s.byteAt s.sp.toNat)).sp.toNat 0).incSp.advance 1)
  | call {a : Byte} {r : Reg} (h : a.toNat = r.val) (hpc : s.pc.toNat ≤ 253) :
      Completed s (.call a)
        ((s.decSp.setByte (s.sp - 1).toNat (BitVec.ofNat 8 (s.pc.toNat + 2))).jumpTo (s.decSp.reg r))
  | ret : Completed s .ret (((s.jumpTo (s.byteAt s.sp.toNat)).setByte s.sp.toNat 0).incSp)
  | cmp {a b : Byte} {ra rb : Reg} (ha : a.toNat = ra.val) (hb : b.toNat = rb.val) :
      Completed s (.cmp a b) ((s.setFl (aluCmp (s.reg ra) (s.reg rb))).advance 2)
  | jmp {a : Byte} {r : Reg} (h : a.toNat = r.val) : Completed s (.jmp a) (s.jumpTo (s.reg r))
  | jeq {a : Byte} {r : Reg} (h : a.toNat = r.val) : Completed s (.jeq a) (jumpIf s.isEqual r s)
  | jne {a : Byte} {r : Reg} (h : a.toNat = r.val) : Completed s (.jne a) (jumpIf (!s.isEqual) r s)

/-- What an instruction of its own can raise: InvalidRegister of a register operand above 7, and for a CALL from address
254 up OutOfRange of its return address (44_execution_loop.md R214, R216). -/
def Raises (i : Instr) (s : State) (f : Raised) : Prop :=
  (∃ b ∈ i.regOperands, 7 < b.toNat ∧ f = { kind := .invalidRegister, info := b.toNat }) ∨
    (f = { kind := .outOfRange, info := s.pc.toNat + 2 } ∧ 254 ≤ s.pc.toNat ∧ ∃ a, i = .call a)

/-- The stack pointer after a decrement. -/
@[simp] theorem sp_decSp (s : State) : s.decSp.sp = s.sp - 1 := by simp [decSp_eq, sp_setReg]

/-- One register operand and a handler that never raises: all that can happen. -/
theorem withReg_total {i : Instr} {a : Byte} {s t : State} {handler : Reg → Except Raised State} {result : Reg → State}
    (mem : a ∈ i.regOperands) (total : ∀ r, handler r = .ok (result r)) (h : withReg a s handler = .next t) :
    (∃ r : Reg, a.toNat = r.val ∧ t = result r) ∨ ∃ f, t = s.takeFault f ∧ Raises i s f := by
  rcases withReg_next h with ⟨r, hr, h⟩ | ⟨ha, rfl⟩
  · rw [total] at h
    exact .inl ⟨r, hr, by simpa using h.symm⟩
  · exact .inr ⟨_, rfl, .inl ⟨a, mem, ha, rfl⟩⟩

/-- Two register operands and a handler that never raises: all that can happen. -/
theorem withRegs_total {i : Instr} {a b : Byte} {s t : State} {handler : Reg → Reg → Except Raised State}
    {result : Reg → Reg → State} (mem : i.regOperands = [a, b])
    (total : ∀ ra rb, handler ra rb = .ok (result ra rb)) (h : withRegs a b s handler = .next t) :
    (∃ ra rb : Reg, a.toNat = ra.val ∧ b.toNat = rb.val ∧ t = result ra rb) ∨
      ∃ f, t = s.takeFault f ∧ Raises i s f := by
  rcases withRegs_next h with ⟨ra, rb, ha, hb, h⟩ | ⟨c, hc, h7, rfl⟩
  · rw [total] at h
    exact .inl ⟨ra, rb, ha, hb, by simpa using h.symm⟩
  · exact .inr ⟨_, rfl, .inl ⟨c, by simpa [mem] using hc, h7, rfl⟩⟩

/-- All that an instruction can do: complete in its form, or enter a fault it can raise. -/
theorem exec_next {i : Instr} {s t : State} (h : exec i s = .next t) :
    Completed s i t ∨ ∃ f, t = s.takeFault f ∧ Raises i s f := by
  cases i with
  | hlt => simp [exec, execHlt] at h; subst h; exact .inl .hlt
  | ldi a imm =>
    rcases withReg_total (i := .ldi a imm) (by simp [Instr.regOperands]) (fun _ => rfl) h with ⟨r, hr, rfl⟩ | hf
    exacts [.inl (.ldi hr), .inr hf]
  | prn a =>
    rcases withReg_total (i := .prn a) (by simp [Instr.regOperands]) (fun _ => rfl) h with ⟨r, hr, rfl⟩ | hf
    exacts [.inl (.prn hr), .inr hf]
  | add a b =>
    rcases withRegs_total (i := .add a b) rfl (fun _ _ => rfl) h with ⟨ra, rb, ha, hb, rfl⟩ | hf
    exacts [.inl (.add ha hb), .inr hf]
  | mul a b =>
    rcases withRegs_total (i := .mul a b) rfl (fun _ _ => rfl) h with ⟨ra, rb, ha, hb, rfl⟩ | hf
    exacts [.inl (.mul ha hb), .inr hf]
  | cmp a b =>
    rcases withRegs_total (i := .cmp a b) rfl (fun _ _ => rfl) h with ⟨ra, rb, ha, hb, rfl⟩ | hf
    exacts [.inl (.cmp ha hb), .inr hf]
  | push a =>
    have total (r : Reg) : (s.decSp.writeTop (s.decSp.reg r) >>= fun u => .ok (u.advance 1)) =
        Except.ok ((s.decSp.setByte (s.sp - 1).toNat (s.decSp.reg r)).advance 1) := by simp [bind, Except.bind]
    rcases withReg_total (i := .push a) (by simp [Instr.regOperands]) total h with ⟨r, hr, rfl⟩ | hf
    exacts [.inl (.push hr), .inr hf]
  | pop a =>
    have total (r : Reg) : (s.readTop >>= fun v => (s.setReg r v).writeTop 0 >>= fun u =>
        Except.ok (u.incSp.advance 1)) = .ok (((s.setReg r (s.byteAt s.sp.toNat)).setByte
          (s.setReg r (s.byteAt s.sp.toNat)).sp.toNat 0).incSp.advance 1) := by simp [bind, Except.bind]
    rcases withReg_total (i := .pop a) (by simp [Instr.regOperands]) total h with ⟨r, hr, rfl⟩ | hf
    exacts [.inl (.pop hr), .inr hf]
  | call a =>
    by_cases hpc : s.pc.toNat ≤ 253
    · have total (r : Reg) : (s.returnAddress >>= fun back => s.decSp.writeTop back >>= fun u =>
          Except.ok (u.jumpTo (u.reg r))) = .ok ((s.decSp.setByte (s.sp - 1).toNat
            (BitVec.ofNat 8 (s.pc.toNat + 2))).jumpTo (s.decSp.reg r)) := by
        simp [bind, Except.bind, returnAddress_byte s hpc]
      rcases withReg_total (i := .call a) (by simp [Instr.regOperands]) total h with ⟨r, hr, rfl⟩ | hf
      exacts [.inl (.call hr hpc), .inr hf]
    · have raised := returnAddress_outOfRange s (show 254 ≤ s.pc.toNat by omega)
      rcases withReg_next h with ⟨r, hr, h⟩ | ⟨ha, rfl⟩
      · simp only [raised, bind, Except.bind, finish_error, Host.Outcome.next.injEq] at h
        exact .inr ⟨_, h.symm, .inr ⟨rfl, by omega, a, rfl⟩⟩
      · exact .inr ⟨_, rfl, .inl ⟨a, by simp [Instr.regOperands], ha, rfl⟩⟩
  | ret =>
    have total : (s.readTop >>= fun v => (s.jumpTo v).writeTop 0 >>= fun u => Except.ok u.incSp) =
        .ok (((s.jumpTo (s.byteAt s.sp.toNat)).setByte s.sp.toNat 0).incSp) := by simp [bind, Except.bind]
    simp only [exec, execRet] at h
    rw [total] at h
    simp only [finish_ok, Host.Outcome.next.injEq] at h
    exact .inl (h ▸ .ret)
  | jmp a =>
    rcases withReg_total (i := .jmp a) (by simp [Instr.regOperands]) (fun _ => rfl) h with ⟨r, hr, rfl⟩ | hf
    exacts [.inl (.jmp hr), .inr hf]
  | jeq a =>
    rcases withReg_total (i := .jeq a) (by simp [Instr.regOperands]) (fun _ => rfl) h with ⟨r, hr, rfl⟩ | hf
    exacts [.inl (.jeq hr), .inr hf]
  | jne a =>
    rcases withReg_total (i := .jne a) (by simp [Instr.regOperands]) (fun _ => rfl) h with ⟨r, hr, rfl⟩ | hf
    exacts [.inl (.jne hr), .inr hf]

end Sys2Proof.Machine
end

