-- ==== Sys2Proof/Laws/PerInstr.lean ====
section
/-! SUPPORT. What holds of every instruction as syntax, one lemma per constructor. -/

namespace Sys2Proof.Laws.EncodedOperands

/-- The register operands are a leading part of the operand bytes, and the opcode's bits 7:6 count the operand bytes
(30_encoding.md R81, R86). -/
def Statement (i : Instr) : Prop :=
  i.regOperands <+: i.operands ∧ i.operands.length = i.opcode.toNat / 64

theorem hlt : Statement .hlt := ⟨List.prefix_rfl, by simp [Instr.operands, Instr.opcode]⟩
theorem ldi (a imm : Byte) : Statement (.ldi a imm) := ⟨⟨[imm], rfl⟩, by simp [Instr.operands, Instr.opcode]⟩
theorem prn (a : Byte) : Statement (.prn a) := ⟨List.prefix_rfl, by simp [Instr.operands, Instr.opcode]⟩
theorem add (a b : Byte) : Statement (.add a b) := ⟨List.prefix_rfl, by simp [Instr.operands, Instr.opcode]⟩
theorem mul (a b : Byte) : Statement (.mul a b) := ⟨List.prefix_rfl, by simp [Instr.operands, Instr.opcode]⟩
theorem push (a : Byte) : Statement (.push a) := ⟨List.prefix_rfl, by simp [Instr.operands, Instr.opcode]⟩
theorem pop (a : Byte) : Statement (.pop a) := ⟨List.prefix_rfl, by simp [Instr.operands, Instr.opcode]⟩
theorem call (a : Byte) : Statement (.call a) := ⟨List.prefix_rfl, by simp [Instr.operands, Instr.opcode]⟩
theorem ret : Statement .ret := ⟨List.prefix_rfl, by simp [Instr.operands, Instr.opcode]⟩
theorem cmp (a b : Byte) : Statement (.cmp a b) := ⟨List.prefix_rfl, by simp [Instr.operands, Instr.opcode]⟩
theorem jmp (a : Byte) : Statement (.jmp a) := ⟨List.prefix_rfl, by simp [Instr.operands, Instr.opcode]⟩
theorem jeq (a : Byte) : Statement (.jeq a) := ⟨List.prefix_rfl, by simp [Instr.operands, Instr.opcode]⟩
theorem jne (a : Byte) : Statement (.jne a) := ⟨List.prefix_rfl, by simp [Instr.operands, Instr.opcode]⟩

end Sys2Proof.Laws.EncodedOperands
end

