-- ==== Sys2Proof/Laws/Step.lean ====
section
/-! SUPPORT. What the decoder, the fetch and the step can answer. -/

namespace Sys2Proof.Machine

/-- Operands taken are still taken, alike, with more bytes after. -/
theorem takeOperands_append {layout : Layout} {bs rest : List Byte} {i : Instr} (more : List Byte)
    (h : takeOperands layout bs = .ok (i, rest)) : takeOperands layout (bs ++ more) = .ok (i, rest ++ more) := by
  match layout, bs with
  | .none j, bs => simp_all [takeOperands]
  | .one build, [] => simp [takeOperands] at h
  | .one build, a :: bs => simp_all [takeOperands]
  | .two build, [] => simp [takeOperands] at h
  | .two build, [a] => simp [takeOperands] at h
  | .two build, a :: b :: bs => simp_all [takeOperands]

/-- A decode that succeeds still succeeds, alike, with more bytes after. -/
theorem decode_append {bs rest : List Byte} {i : Instr} (more : List Byte) (h : decode bs = .ok (i, rest)) :
    decode (bs ++ more) = .ok (i, rest ++ more) := by
  cases bs with
  | nil => simp [decode] at h
  | cons op bs =>
    cases hd : dispatchTable op with
    | none => simp [decode, hd] at h
    | some layout =>
      simp only [decode, hd, List.cons_append] at h ⊢
      exact takeOperands_append more h

/-- Nothing is read past address 255. -/
theorem bytesFrom_past (s : State) {x : Nat} (n : Nat) (h : 255 < x) : s.bytesFrom x n = [] := by
  cases n <;> simp [State.bytesFrom, h]

/-- In range, the first byte read is the cell's. -/
theorem bytesFrom_cons (s : State) {x : Nat} (n : Nat) (h : x ≤ 255) :
    s.bytesFrom x (n + 1) = s.byteAt x :: s.bytesFrom (x + 1) n := by
  simp [State.bytesFrom, h]

/-- How many bytes are read: at most `n`, and none past address 255. -/
@[simp] theorem bytesFrom_length (s : State) (x n : Nat) : (s.bytesFrom x n).length = min n (256 - x) := by
  induction n generalizing x with
  | zero => simp [State.bytesFrom]
  | succ n ih =>
    by_cases h : x ≤ 255
    · simp only [bytesFrom_cons s n h, List.length_cons, ih]; omega
    · simp only [bytesFrom_past s (n + 1) (show 255 < x by omega), List.length_nil]; omega

/-- Byte `k` read is the cell `k` addresses up. -/
theorem bytesFrom_getElem (s : State) (x n k : Nat) (h : k < (s.bytesFrom x n).length) :
    (s.bytesFrom x n)[k] = s.byteAt (x + k) := by
  induction n generalizing x k with
  | zero => simp at h
  | succ n ih =>
    have hx : x ≤ 255 := by simp at h; omega
    cases k with
    | zero => simp [bytesFrom_cons s n hx]
    | succ k =>
      simp only [bytesFrom_cons s n hx, List.getElem_cons_succ]
      rw [ih, show x + 1 + k = x + (k + 1) by omega]

/-- All that a step of a running machine can do: run the instruction it fetched, or enter the fault of its fetch. -/
theorem step_running {s : State} (h : s.status = .running) :
    (∃ i, s.fetch = .ok i ∧ step s = exec i s) ∨
      ∃ f, s.fetch = .error f ∧ step s = .next (s.takeFault f) := by
  unfold step
  rw [h]
  cases s.fetch with
  | ok i => exact .inl ⟨i, rfl, rfl⟩
  | error f => exact .inr ⟨f, rfl, rfl⟩

/-- A stopped machine's step answers the same state. -/
theorem step_stopped {s : State} (h : s.status ≠ .running) : step s = .next s := by
  unfold step
  cases hs : s.status <;> simp_all

end Sys2Proof.Machine
end

