-- ==== Sys2Proof/Tests/Slice0.lean ====
section
/-! SUPPORT. Tests of the model on fixed values from spec/95_test_vectors.md and the encoding tables, and for each
statement with hypotheses a witness that meets them. -/

namespace Sys2Proof.Tests

open Sys2Proof Sys2Proof.Machine

/-- The reference reset state with bytes stored from address `x` up and pc at `x`. -/
def startAt (x : Nat) (program : List Byte) : State :=
  { State.reset with mem := Memory.writeList [] x program, pc := BitVec.ofNat 9 x }

/-- The answer is a next state with the property. -/
def gives (o : Host.Outcome State Fault Refusal) (p : State → Bool) : Bool :=
  match o with
  | .next t => p t
  | .fault _ => false
  | .refused _ => false

/-- The step takes the fault, recorded at `fpc`. -/
def faults (o : Host.Outcome State Fault Refusal) (k : FaultKind) (fpc : PC) (info : Nat) : Bool :=
  gives o fun t => t.status = .faulted && t.faultRecord = some { kind := k, fpc := fpc, info := info }

/-! ### Well-formedness: an ill-formed term for each check (30_encoding.md R84, R85) -/

theorem test_wellFormed_refuses_first_operand_8 : WellFormed (.add 8 0) = false := by decide
theorem test_wellFormed_refuses_second_operand_8 : WellFormed (.add 7 8) = false := by decide
theorem test_wellFormed_refuses_single_operand_255 : WellFormed (.jne 255) = false := by decide
theorem test_wellFormed_refuses_ldi_register_8 : WellFormed (.ldi 8 0) = false := by decide
theorem test_wellFormed_takes_any_immediate : WellFormed (.ldi 7 255) = true := by decide

/-! ### Decoding: words written out from 30_encoding.md R86, R90 -/

theorem test_decode_hlt : decode [0b00000001] = .ok (.hlt, []) := by decide
theorem test_decode_ldi : decode [0b10000010, 0b00000010, 0b11001000] = .ok (.ldi 2 200, []) := by decide
theorem test_decode_prn : decode [0b01000111, 0b00000011] = .ok (.prn 3, []) := by decide
theorem test_decode_add : decode [0b10100000, 0b00000000, 0b00000001] = .ok (.add 0 1, []) := by decide
theorem test_decode_mul : decode [0b10100010, 0b00000111, 0b00000110] = .ok (.mul 7 6, []) := by decide
theorem test_decode_push : decode [0b01000101, 0b00000111] = .ok (.push 7, []) := by decide
theorem test_decode_pop : decode [0b01000110, 0b00000001] = .ok (.pop 1, []) := by decide
theorem test_decode_call : decode [0b01010000, 0b00000001] = .ok (.call 1, []) := by decide
theorem test_decode_ret : decode [0b00010001] = .ok (.ret, []) := by decide
theorem test_decode_cmp : decode [0b10100111, 0b00000101, 0b00000100] = .ok (.cmp 5 4, []) := by decide
theorem test_decode_jmp : decode [0b01010100, 0b00000011] = .ok (.jmp 3, []) := by decide
theorem test_decode_jeq : decode [0b01010101, 0b00000010] = .ok (.jeq 2, []) := by decide
theorem test_decode_jne : decode [0b01010110, 0b00000010] = .ok (.jne 2, []) := by decide
theorem test_decode_zero_illegal : decode [0b00000000, 1, 2] = .error (.illegalOpcode 0) := by decide
theorem test_decode_sub_illegal : decode [0xA1, 0, 1] = .error (.illegalOpcode 0xA1) := by decide
theorem test_decode_truncated : decode [0b10100000, 5] = .error (.truncated 2) := by decide
theorem test_decodeTableWord_short : decodeTableWord 8 0xA0 = some (.add 0 0) := by decide
theorem test_decodeTableWord_bytes : decodeTableWord 24 0xC80282 = some (.ldi 2 200) := by decide
theorem test_decodeTableWord_illegal : decodeTableWord 8 0xFF = none := by decide

/-! ### One step each, the derived vectors of 95_test_vectors.md section 2 -/

/-- A1. -/
theorem test_add_wraps : gives (step (((startAt 0 [0xA0, 0, 1]).setReg 0 250).setReg 1 10))
    (fun t => t.reg 0 = 4 && t.pc = 3 && t.fl = 0) = true := by decide
/-- A4. -/
theorem test_add_moves_sp : gives (step ((startAt 0 [0xA0, 7, 1]).setReg 1 2)) (fun t => t.sp = 1) = true := by decide
/-- A6b. -/
theorem test_mul_low_byte : gives (step (((startAt 0 [0xA2, 0, 1]).setReg 0 255).setReg 1 255))
    (fun t => t.reg 0 = 1) = true := by decide
/-- A6c. -/
theorem test_mul_same_register : gives (step ((startAt 0 [0xA2, 0, 0]).setReg 0 20))
    (fun t => t.reg 0 = 144) = true := by decide
/-- A10. -/
theorem test_cmp_unsigned : gives (step (((startAt 0 [0xA7, 0, 1]).setReg 0 0x80).setReg 1 0x7F))
    (fun t => t.fl = 0x02 && t.reg 0 = 0x80 && t.pc = 3) = true := by decide
/-- A11. -/
theorem test_cmp_less : gives (step ((startAt 0 [0xA7, 0, 1]).setReg 1 255)) (fun t => t.fl = 0x04) = true := by decide
/-- L4. -/
theorem test_ldi_takes_three_bytes : gives (step (startAt 0 [0x82, 0, 8, 9]))
    (fun t => t.reg 0 = 8 && t.pc = 3) = true := by decide
/-- L3. -/
theorem test_ldi_register_8_faults : faults (step (startAt 0 [0x82, 8, 5])) .invalidRegister 0 8 = true := by decide
/-- L6. -/
theorem test_prn_emits_sp : gives (step (startAt 0 [0x47, 7])) (fun t => t.output = [255] && t.pc = 2) = true := by decide
/-- L9. -/
theorem test_hlt_at_255 : gives (step (startAt 255 [0x01])) (fun t => t.status = .halted && t.pc = 256) = true := by decide
/-- S2. -/
theorem test_push_wraps_sp : gives (step (((startAt 0 [0x45, 0]).setReg 0 7).setReg 7 0))
    (fun t => t.sp = 0xFF && t.byteAt 0xFF = 7 && t.pc = 2) = true := by decide
/-- S7. -/
theorem test_push_r7 : gives (step ((startAt 0 [0x45, 7]).setReg 7 0x80))
    (fun t => t.sp = 0x7F && t.byteAt 0x7F = 0x7F) = true := by decide
/-- S4. -/
theorem test_pop_wraps_sp : gives (step ((startAt 0 [0x46, 1]).setByte 0xFF 9))
    (fun t => t.reg 1 = 9 && t.byteAt 0xFF = 0 && t.sp = 0) = true := by decide
/-- S8. -/
theorem test_pop_r7 : gives (step (((startAt 0 [0x46, 7]).setReg 7 0xF0).setByte 0xF0 0x20 |>.setByte 0x20 5))
    (fun t => t.sp = 0x21 && t.byteAt 0x20 = 0 && t.byteAt 0xF0 = 0x20) = true := by decide
/-- C1. -/
theorem test_call : gives (step ((startAt 10 [0x50, 1]).setReg 1 20))
    (fun t => t.byteAt 0xFE = 12 && t.sp = 0xFE && t.pc = 20) = true := by decide
/-- C6. -/
theorem test_call_r7 : gives (step ((startAt 4 [0x50, 7]).setReg 7 0x80))
    (fun t => t.byteAt 0x7F = 6 && t.sp = 0x7F && t.pc = 0x7F) = true := by decide
/-- C4. -/
theorem test_ret : gives (step (((startAt 0 [0x11]).setReg 7 0xFE).setByte 0xFE 12))
    (fun t => t.pc = 12 && t.byteAt 0xFE = 0 && t.sp = 0xFF) = true := by decide
/-- C7. -/
theorem test_jmp : gives (step (startAt 9 [0x54, 3])) (fun t => t.pc = 0) = true := by decide
/-- C8. -/
theorem test_jeq_taken : gives (step (((startAt 13 [0x55, 2]).setReg 2 40).setFl 1)) (fun t => t.pc = 40) = true := by decide
/-- C9. -/
theorem test_jeq_not_taken : gives (step (((startAt 13 [0x55, 2]).setReg 2 40).setFl 4))
    (fun t => t.pc = 15) = true := by decide
/-- C11. -/
theorem test_jne_before_compare : gives (step ((startAt 13 [0x56, 2]).setReg 2 40)) (fun t => t.pc = 40) = true := by decide
/-- C12. -/
theorem test_jne_not_taken : gives (step (((startAt 13 [0x56, 2]).setReg 2 40).setFl 1))
    (fun t => t.pc = 15) = true := by decide
/-- A16. -/
theorem test_first_operand_reported : faults (step (startAt 0 [0xA0, 8, 9])) .invalidRegister 0 8 = true := by decide
/-- A17. -/
theorem test_operand_b_past_end : faults (step (startAt 254 [0xA0, 0])) .outOfRange 254 256 = true := by decide
/-- C2. -/
theorem test_call_at_254 : faults (step (startAt 254 [0x50, 1])) .outOfRange 254 256 = true := by decide
/-- C14. -/
theorem test_jeq_checks_operand : faults (step (startAt 0 [0x55, 8])) .invalidRegister 0 8 = true := by decide
/-- X1: the first step of an unloaded machine. -/
theorem test_reset_step : faults (step State.reset) .illegalInstruction 0 0 = true := by decide
/-- X3. -/
theorem test_illegal_before_operand_fetch : faults (step (startAt 254 [0xFF])) .illegalInstruction 254 0xFF = true := by
  decide
/-- X4. -/
theorem test_opcode_fetch_at_256 : faults (step (startAt 256 [])) .outOfRange 256 256 = true := by decide
/-- The host's placed word runs as the first instruction after reset. -/
theorem test_placed_word_runs :
    step (State.reset.withFetchWord 24 0xC80282) = exec (.ldi 2 200) (State.reset.withFetchWord 24 0xC80282) := rfl
/-- Writing 0, what an unlisted address reads as, removes the entry. -/
theorem test_zero_write_canonical : Memory.write [(3, 1), (5, 2)] 3 0 = [(5, 2)] := by decide
/-- Entries stay in rising order. -/
theorem test_write_in_order : Memory.write [(3, 1), (5, 2)] 4 9 = [(3, 1), (4, 9), (5, 2)] := by decide
/-- The status port of a faulted machine (60_exceptions.md R240, R261). -/
theorem test_status_port : gives (step State.reset) (fun t => t.statusReport.fault = some (3, 0, 0)) = true := by decide

/-! ### Witnesses: the hypotheses of the statements can be met, at the ends of their ranges -/

/-- DecodesExactlyTheEncodings: a decode that succeeds and leaves a byte over. -/
theorem witness_DecodesExactlyTheEncodings : decode [0xA0, 7, 255, 9] = .ok (.add 7 255, [9]) := by decide
/-- UnlistedOpcodesRejected: each side of the equivalence, met and not met. -/
theorem witness_UnlistedOpcodesRejected : (0xFF : Byte) ∉ legalOpcodes ∧ (0x56 : Byte) ∈ legalOpcodes := by decide
theorem witness_OpcodeAloneFixesLength :
    (encode (.ldi 0 0)).head? = (encode (.ldi 7 255)).head? := by decide
theorem witness_HighBitsGiveOperandCount : decode (0x45 :: [7, 1]) = .ok (.push 7, [1]) := by decide
/-- An instruction that ends at address 255. -/
theorem witness_StepRunsDecodedInstruction :
    let s := startAt 253 [0x82, 0, 5]
    s.status = .running ∧ s.pc.toNat + [0x82, 0, (5 : Byte)].length ≤ 256 ∧
      (∀ k (h : k < [0x82, 0, (5 : Byte)].length), s.byteAt (s.pc.toNat + k) = [0x82, 0, (5 : Byte)][k]) ∧
      decode [0x82, 0, 5] = .ok (.ldi 0 5, []) := by decide
/-- LdiLoadsImmediate, PrnAppendsRegister and every other statement on one register operand: the last valid index. -/
theorem witness_valid_operand : Names 7 7 ∧ Names 0 0 := by decide
/-- LdiLoadsImmediate and PrnAppendsRegister, the invalid operand: the first and the last invalid index. -/
theorem witness_invalid_operand : 7 < (8 : Byte).toNat ∧ 7 < (255 : Byte).toNat := by decide
/-- AddWrapsModulo256, MulKeepsLowByte, CmpSetsOneFlagState: two operands, equal and different. -/
theorem witness_two_operands : (Names 7 7 ∧ Names 0 0) ∧ (Names 3 3 ∧ Names 3 3) := by decide
/-- CmpSetsOneFlagState: a state for each of the three outcomes. -/
theorem witness_CmpSetsOneFlagState :
    let s := ((startAt 0 []).setReg 0 0x80).setReg 1 0x7F
    s.reg 2 = s.reg 3 ∧ (s.reg 1).toNat < (s.reg 0).toNat ∧ (s.reg 2).toNat < (s.reg 1).toNat := by decide
/-- OutputGrowsOnlyByPrn: an instruction that is no PRN, and a step, each answering a next state. -/
theorem witness_OutputGrowsOnlyByPrn :
    (∃ t, exec .ret State.reset = .next t ∧ ∀ a, Instr.ret ≠ .prn a) ∧
    (∃ t, step (startAt 0 [0x47, 7]) = .next t) ∧ Names 7 7 :=
  ⟨⟨_, rfl, by simp⟩, ⟨_, rfl⟩, rfl⟩
theorem witness_OutputIsNeverRead : ∃ t, step (startAt 0 [0x47, 7]) = .next t := ⟨_, rfl⟩
/-- OnlyCmpWritesAndJumpsReadFlags: its two clauses. -/
theorem witness_OnlyCmpWritesAndJumpsReadFlags :
    (∃ t, exec (.add 0 1) State.reset = .next t ∧ ∀ a b, Instr.add 0 1 ≠ .cmp a b) ∧
    (∃ t, exec (.cmp 0 1) State.reset = .next t ∧ (∀ a, Instr.cmp 0 1 ≠ .jeq a) ∧ ∀ a, Instr.cmp 0 1 ≠ .jne a) :=
  ⟨⟨_, rfl, by simp⟩, ⟨_, rfl, by simp, by simp⟩⟩
/-- UnsupportedOperationUnreachable and FaultsArePrecise: a running machine whose step faults. -/
theorem witness_faulting_step : State.reset.status = .running ∧
    ∃ t r, step State.reset = .next t ∧ t.status = .faulted ∧ t.faultRecord = some r :=
  ⟨rfl, _, _, rfl, rfl, rfl⟩
/-- PushStoresBelow: the R7 form and the stack pointer 0, which wraps. -/
theorem witness_PushStoresBelow : Names 7 7 ∧ ((startAt 0 []).setReg 7 0).sp - 1 = 255 := by decide
theorem witness_PopLoadsAndClears : Names 6 6 ∧ (6 : Reg) ≠ 7 := by decide
theorem witness_PopR7ClearsTheLoadedAddress : Names 7 7 := by decide
theorem witness_PopUndoesPush : Names 0 0 ∧ Names 6 6 ∧ (0 : Reg) ≠ 7 ∧ (6 : Reg) ≠ 7 := by decide
theorem witness_PushedByteIsFetchedNext :
    let s := ((startAt 0 [0x45, 0, 0x01]).setReg 7 3).setReg 0 0xFF
    Names 0 0 ∧ (0 : Reg) ≠ 7 ∧ s.status = .running ∧ (s.sp - 1).toNat = s.pc.toNat + 2 ∧
      s.reg 0 ∉ legalOpcodes := by decide
/-- CallPushesReturnAddress and RetUndoesCall: the last address whose return address is a byte, and the R7 form. -/
theorem witness_CallPushesReturnAddress : Names 7 7 ∧ (startAt 253 []).pc.toNat ≤ 253 := by decide
theorem witness_CallWithoutByteReturnFaults : Names 0 0 ∧ 254 ≤ (startAt 254 []).pc.toNat := by decide
/-- JeqJumpsOnEqual and JneJumpsUnlessEqual: a state of each kind. -/
theorem witness_JumpsBothWays : ((startAt 0 []).setFl 1).fl = 0x01 ∧ ((startAt 0 []).setFl 4).fl ≠ 0x01 := by decide
/-- CompareDecidesTheJumps: equal and different registers. -/
theorem witness_CompareDecidesTheJumps : Names 0 0 ∧ Names 7 7 ∧ Names 1 1 ∧
    State.reset.reg 0 = State.reset.reg 1 ∧ State.reset.reg 0 ≠ State.reset.reg 7 := by decide
/-- WhileFlagsZeroOnlyJneBranches: the reset state, and one at the last address a 2-byte instruction fits. -/
theorem witness_WhileFlagsZeroOnlyJneBranches :
    Names 7 7 ∧ Names 0 0 ∧ State.reset.fl = 0x00 ∧ (startAt 254 []).fl = 0x00 := by decide
/-- TransfersStayInMemory: a jump with an operand and the return, at the last address. -/
theorem witness_TransfersStayInMemory : ownsPc (.call 7) = true ∧ WellFormed (.call 7) = true ∧
    ownsPc .ret = true ∧ WellFormed .ret = true ∧ (startAt 253 []).pc.toNat ≤ 253 := by decide
theorem witness_OtherHandlersAdvancePc : ownsPc (.ldi 7 255) = false ∧ WellFormed (.ldi 7 255) = true ∧
    ownsPc .hlt = false ∧ WellFormed .hlt = true := by decide
/-- A self-jump at the last address a 2-byte instruction fits. -/
theorem witness_SelfJumpNeverEnds :
    let s := (startAt 254 [0x54, 7]).setReg 7 254
    s.status = .running ∧ s.pc.toNat ≤ 254 ∧ s.byteAt s.pc.toNat = 0b01010100 ∧
      Names (s.byteAt (s.pc.toNat + 1)) 7 ∧ (s.reg 7).toNat = s.pc.toNat := by decide
theorem witness_RegistersChangeByTheTable :
    ∃ t, exec (.ldi 0 5) State.reset = .next t ∧ t.reg 0 ≠ State.reset.reg 0 := ⟨_, rfl, by decide⟩
/-- MemoryChangesByTheTable: a push that changes its cell, and a pop that clears one. -/
theorem witness_MemoryChangesByTheTable :
    (∃ t, exec (.push 7) State.reset = .next t ∧ t.byteAt 254 ≠ State.reset.byteAt 254) ∧
    (∃ t, exec (.pop 0) (startAt 255 [9]) = .next t ∧ t.byteAt 255 ≠ (startAt 255 [9]).byteAt 255) :=
  ⟨⟨_, rfl, by decide⟩, ⟨_, rfl, by decide⟩⟩
/-- InvalidRegisterOperandFaults: the first operand, and the second after a valid first. -/
theorem witness_InvalidRegisterOperandFaults :
    (Instr.add 8 9).regOperands.find? (fun b => 7 < b.toNat) = some 8 ∧
    (Instr.cmp 7 255).regOperands.find? (fun b => 7 < b.toNat) = some 255 := by decide
theorem witness_IllegalOpcodeFaults :
    let s := startAt 255 [0xFF]
    s.status = .running ∧ s.pc.toNat ≤ 255 ∧ s.byteAt s.pc.toNat ∉ legalOpcodes := by decide
/-- OperandFetchStaysInMemory: the last fitting 3-byte instruction, and the first that does not fit. -/
theorem witness_OperandFetchStaysInMemory :
    (fun s : State => s.status = .running ∧ s.pc.toNat ≤ 255 ∧ s.byteAt s.pc.toNat ∈ legalOpcodes ∧
      s.pc.toNat + (s.byteAt s.pc.toNat).toNat / 64 ≤ 255) (startAt 253 [0x82, 0, 5]) ∧
    (fun s : State => s.status = .running ∧ s.pc.toNat ≤ 255 ∧ s.byteAt s.pc.toNat ∈ legalOpcodes ∧
      255 < s.pc.toNat + (s.byteAt s.pc.toNat).toNat / 64) (startAt 254 [0x82, 0]) := by decide
theorem witness_OpcodeFetchPastEndFaults :
    (startAt 256 []).status = .running ∧ 255 < (startAt 256 []).pc.toNat := by decide
/-- StepFaultsInPriorityOrder: each fault of the list is the first in some running state. -/
theorem witness_StepFaultsInPriorityOrder :
    firstFault (startAt 256 []) = some (.outOfRange, 256) ∧
    firstFault (startAt 254 [0xFF]) = some (.illegalInstruction, 255) ∧
    firstFault (startAt 255 [0x82]) = some (.outOfRange, 256) ∧
    firstFault (startAt 254 [0x82, 9]) = some (.outOfRange, 256) ∧
    firstFault (startAt 0 [0xA0, 8, 9]) = some (.invalidRegister, 8) ∧
    firstFault (startAt 0 [0xA0, 7, 9]) = some (.invalidRegister, 9) ∧
    firstFault (startAt 254 [0x50, 7]) = some (.outOfRange, 256) ∧
    firstFault (startAt 0 [0x82, 7, 9]) = none := by decide
/-- StoppedMachineNeverChanges: a machine of each stopped kind. -/
theorem witness_StoppedMachineNeverChanges : State.reset.halt.status ≠ .running ∧
    (State.reset.takeFault { kind := .illegalInstruction, info := 0 }).status ≠ .running := by decide
/-- StatusPortReports: a faulted machine with a record of each kind, and one that is not Faulted. -/
theorem witness_StatusPortReports : State.reset.status ≠ .faulted ∧
    ∀ k ∈ [FaultKind.outOfRange, .invalidRegister, .illegalInstruction, .unsupportedOperation],
      (State.reset.faultedWith k 9).status = .faulted ∧
      (State.reset.faultedWith k 9).faultRecord = some { kind := k, fpc := 0, info := 9 } := by decide
/-- LoadPlacesTheProgram and InvariantHoldsAfterLoad: the longest program that fits, and a byte inside and outside. -/
theorem witness_LoadPlacesTheProgram : (List.replicate 256 (0x01 : Byte)).length ≤ 256 ∧
    ∃ t, boot Config.reference [0x01] = .next t :=
  ⟨List.length_replicate.le, _, rfl⟩
theorem witness_LongProgramIsLoadError : 256 < (List.replicate 257 (0x01 : Byte)).length := by
  rw [List.length_replicate]; decide
theorem witness_MemWriteSetsOneCell : (255 : Nat) ≤ 255 ∧ 255 < (256 : Nat) := by decide
theorem witness_CanonicalMemoryIsUnique : Memory.wf [(0, 1), (255, 2)] := by decide
/-- StepKeepsInvariant: a state with a loaded HLT meets the invariant, and its step answers a next state. -/
theorem witness_StepKeepsInvariant :
    Machine.Inv (startAt 0 [0x01]) ∧ ∃ t, step (startAt 0 [0x01]) = .next t :=
  ⟨⟨by decide, by decide, by decide, by decide, fun r h => by simp [startAt, State.reset, State.resetWith] at h⟩, _, rfl⟩

end Sys2Proof.Tests
end

section
/-! PROOFS. POP on a valid operand, and the POP R7 form (42_stack.md section 1). -/

namespace Sys2Proof.Machine

/-- POP with a valid operand completes: the register takes the popped byte, the cell the stack pointer addresses after
that is cleared, and the stack pointer is incremented (42_stack.md R163). -/
theorem exec_pop_valid {a : Byte} {r : Reg} (s : State) (h : Names a r) :
    exec (.pop a) s = .next (((s.setReg r (s.byteAt s.sp.toNat)).setByte
      (s.setReg r (s.byteAt s.sp.toNat)).sp.toNat 0).incSp.advance 1) := by
  simp only [exec, execPop, withReg_valid s _ h, readTop_eq, writeTop_eq, bind, Except.bind, finish_ok]

/-- POP R7: the load moves the stack pointer before the clear, so the cleared cell is the one the popped byte
addresses (42_stack.md R164). -/
theorem exec_pop_r7 {a : Byte} (s : State) (h : Names a 7) :
    exec (.pop a) s = .next (((s.setReg 7 (s.byteAt s.sp.toNat)).setByte
      (s.byteAt s.sp.toNat).toNat 0).incSp.advance 1) := by
  rw [exec_pop_valid s h, sp_setReg, if_pos rfl]

/-- Settles O20: of the three updates in POP R7's completed form, the increment reads the loaded register 7, and only
the clear touches memory. -/
theorem popR7ClearsTheLoadedAddress : Obligations.PopR7ClearsTheLoadedAddress := by
  intro a s ha
  refine ⟨_, exec_pop_r7 s ha, ?sp, ?cleared, ?regs, ?bytes, ?pc, rfl, rfl, rfl, rfl⟩
  case sp => simp [incSp_eq, sp_setReg]
  case cleared => simp [incSp_eq]
  case regs =>
    intro q hq
    have hq7 : q ≠ 7 := by simpa using hq
    simp [incSp_eq, hq7]
  case bytes =>
    intro x hx
    have hxv : x ≠ (s.byteAt s.sp.toNat).toNat := by simpa using hx
    simp [incSp_eq, byteAt_setByte, hxv]
  case pc => simp [incSp_eq]

end Sys2Proof.Machine
end

section
/-! PROOFS. The flags register and the reset values (10_state.md sections 3 and 6). -/

namespace Sys2Proof.Machine

/-! ### Who writes FL -/

/-- A conditional jump leaves FL, taken or not. -/
@[simp] theorem jumpIf_fl (taken : Bool) (r : Reg) (s : State) : (jumpIf taken r s).fl = s.fl := by
  cases taken <;> rfl

/-- Of the completed forms only CMP's updates FL. -/
theorem Completed.fl_eq {i : Instr} {s t : State} (h : Completed s i t) (notCmp : ∀ a b, i ≠ .cmp a b) :
    t.fl = s.fl := by
  cases h with
  | cmp => exact absurd rfl (notCmp _ _)
  | hlt | ldi | prn | add | mul | push | pop | call | ret | jmp => rfl
  | jeq | jne => exact jumpIf_fl ..

/-- Every instruction but CMP leaves FL; a fault's entry does too. -/
theorem exec_fl_eq {i : Instr} {s t : State} (h : exec i s = .next t) (notCmp : ∀ a b, i ≠ .cmp a b) :
    t.fl = s.fl := by
  rcases exec_next h with completed | ⟨f, rfl, -⟩
  · exact completed.fl_eq notCmp
  · rfl

/-! ### Who reads FL: two runs that differ in FL alone -/

/-- The phases answer alike but for FL: both raise the same fault, or both complete, in states with every field but FL
the same. -/
def SameButFl (phases phases' : Except Raised State) : Prop := ∃ g, phases' = phases.map (·.setFl g)

/-- Two sequences that begin alike and continue alike but for FL answer alike but for FL. -/
theorem SameButFl.bind {α : Type} (first : Except Raised α) {rest rest' : α → Except Raised State}
    (same : ∀ v, SameButFl (rest v) (rest' v)) : SameButFl (first >>= rest) (first >>= rest') := by
  cases first with
  | error e => exact ⟨0, rfl⟩
  | ok v => exact same v

variable {s t : State} {f : Byte}

/-- The write to the stack's top does not read FL: when what follows carries FL along, only FL differs. -/
theorem writeTop_sameButFl (s : State) (v : Byte) {rest : State → State}
    (carries : ∀ u, rest (u.setFl f) = (rest u).setFl f) :
    SameButFl (s.writeTop v >>= fun u => .ok (rest u)) ((s.setFl f).writeTop v >>= fun u => .ok (rest u)) := by
  rw [writeTop_eq, writeTop_eq]
  exact ⟨f, congrArg Except.ok (carries (s.setByte s.sp.toNat v))⟩

/-- The end of a step carries the sameness of its phases over, fault entry included. -/
theorem finish_setFl {phases phases' : Except Raised State} (same : SameButFl phases phases')
    (h : finish s phases = .next t) : ∃ g, finish (s.setFl f) phases' = .next (t.setFl g) := by
  obtain ⟨g, rfl⟩ := same
  rcases finish_next h with rfl | ⟨e, rfl, rfl⟩
  · exact ⟨g, rfl⟩
  · exact ⟨f, rfl⟩

/-- Validating one register operand does not read FL. -/
theorem withReg_setFl {a : Byte} {handler handler' : Reg → Except Raised State}
    (same : ∀ r, SameButFl (handler r) (handler' r)) (h : withReg a s handler = .next t) :
    ∃ g, withReg a (s.setFl f) handler' = .next (t.setFl g) :=
  finish_setFl (.bind _ same) h

/-- Validating two register operands does not read FL. -/
theorem withRegs_setFl {a b : Byte} {handler handler' : Reg → Reg → Except Raised State}
    (same : ∀ ra rb, SameButFl (handler ra rb) (handler' ra rb)) (h : withRegs a b s handler = .next t) :
    ∃ g, withRegs a b (s.setFl f) handler' = .next (t.setFl g) :=
  finish_setFl (.bind _ fun ra => .bind _ (same ra)) h

/-- Every instruction but JEQ and JNE, run with another FL, answers the same state but for FL (10_state.md R34). -/
theorem exec_setFl {i : Instr} (h : exec i s = .next t) (notJeq : ∀ a, i ≠ .jeq a) (notJne : ∀ a, i ≠ .jne a) :
    ∃ g, exec i (s.setFl f) = .next (t.setFl g) := by
  cases i with
  | hlt => cases h; exact ⟨f, rfl⟩
  | ldi | prn | jmp => exact withReg_setFl (fun _ => ⟨f, rfl⟩) h
  | add | mul => exact withRegs_setFl (fun _ _ => ⟨f, rfl⟩) h
  | cmp => exact withRegs_setFl (fun ra rb => ⟨aluCmp (s.reg ra) (s.reg rb), rfl⟩) h
  | push => exact withReg_setFl (fun r => writeTop_sameButFl s.decSp (s.decSp.reg r) fun _ => rfl) h
  | pop =>
    exact withReg_setFl (fun r => .bind s.readTop fun v => writeTop_sameButFl (s.setReg r v) 0 fun _ => rfl) h
  | call =>
    exact withReg_setFl (fun r => .bind s.returnAddress fun v => writeTop_sameButFl s.decSp v fun _ => rfl) h
  | ret => exact finish_setFl (.bind s.readTop fun v => writeTop_sameButFl (s.jumpTo v) 0 fun _ => rfl) h
  | jeq a => exact absurd rfl (notJeq a)
  | jne a => exact absurd rfl (notJne a)

/-- Settles O16: the completed forms say who writes FL, and running the phases beside themselves with another FL says
who reads it. -/
theorem onlyCmpWritesAndJumpsReadFlags : Obligations.OnlyCmpWritesAndJumpsReadFlags :=
  ⟨fun _ _ _ h notCmp => exec_fl_eq h notCmp, fun _ _ _ _ h notJeq notJne => exec_setFl h notJeq notJne⟩

/-! ### Reset -/

/-- Registers 0 to 6 hold `REG_INIT` at reset (10_state.md R40). -/
theorem reg_resetWith_castSucc (c : Config) (i : Fin 7) : (State.resetWith c).reg i.castSucc = c.regInit[i] :=
  Vector.getElem_push_lt i.isLt

/-- The stack pointer is `SP_INIT` at reset (10_state.md R41). -/
theorem reg_resetWith_sp (c : Config) : (State.resetWith c).reg 7 = c.spInit :=
  Vector.getElem_push_eq

/-- Settles O45: the registers by where the vector of `REG_INIT` ends, every other field as reset writes it, and the
empty memory reads as 0. -/
theorem resetState : Obligations.ResetState := fun c =>
  ⟨fun _ => rfl, reg_resetWith_castSucc c, reg_resetWith_sp c, rfl, rfl, rfl, rfl, rfl⟩

end Sys2Proof.Machine
end

section
/-! PROOFS. The memory write (20_memory.md R52). -/

namespace Sys2Proof.Machine

/-- MemWrite in range answers the state with that cell set. -/
theorem memWrite_inRange (s : State) {x : Nat} (v : Byte) (h : x ≤ 255) :
    s.memWrite x v = .ok (s.setByte x v) := by
  simp [State.memWrite, h]

/-- MemWrite out of range raises OutOfRange of the address. -/
theorem memWrite_outOfRange (s : State) {x : Nat} (v : Byte) (h : 255 < x) :
    s.memWrite x v = .error { kind := .outOfRange, info := x } := by
  simp [State.memWrite, h]

/-- Setting one cell leaves the byte at every other address. -/
theorem byteAt_setByte_ne (s : State) {x y : Nat} (v : Byte) (h : y ≠ x) :
    (s.setByte x v).byteAt y = s.byteAt y := by
  rw [byteAt_setByte, if_neg h]

/-- Settles O48: in range the write is one `setByte`, whose laws give the cell written and every other cell, and which
touches no field but memory. -/
theorem memWriteSetsOneCell : Obligations.MemWriteSetsOneCell := by
  refine fun s x v => ⟨fun inRange => ?_, memWrite_outOfRange s v⟩
  refine ⟨s.setByte x v, memWrite_inRange s v inRange, ?written, ?others, fun _ _ => rfl, rfl, rfl, rfl, ?run⟩
  case written => rw [memRead_inRange _ inRange, byteAt_setByte_self]
  case others => exact fun y hy => byteAt_setByte_ne s v (by simpa using hy)
  case run => exact ⟨rfl, rfl⟩

end Sys2Proof.Machine
end

section
/-! PROOFS. The length of an encoding (30_encoding.md section 1). -/

namespace Sys2Proof

/-- The law of the operand bytes, stated one lemma per constructor, gathered for every instruction. -/
theorem encodedOperands : (i : Instr) → Laws.EncodedOperands.Statement i
  | .hlt => Laws.EncodedOperands.hlt
  | .ldi a imm => Laws.EncodedOperands.ldi a imm
  | .prn a => Laws.EncodedOperands.prn a
  | .add a b => Laws.EncodedOperands.add a b
  | .mul a b => Laws.EncodedOperands.mul a b
  | .push a => Laws.EncodedOperands.push a
  | .pop a => Laws.EncodedOperands.pop a
  | .call a => Laws.EncodedOperands.call a
  | .ret => Laws.EncodedOperands.ret
  | .cmp a b => Laws.EncodedOperands.cmp a b
  | .jmp a => Laws.EncodedOperands.jmp a
  | .jeq a => Laws.EncodedOperands.jeq a
  | .jne a => Laws.EncodedOperands.jne a

/-- Bits 7:6 of the opcode count the operand bytes (30_encoding.md R81). -/
theorem operands_length (i : Instr) : i.operands.length = i.opcode.toNat / 64 := (encodedOperands i).2

/-- No opcode has both bits 7:6 set, so none asks for a third operand byte (30_encoding.md R80, R90). -/
theorem opcode_lt (i : Instr) : i.opcode.toNat < 0xC0 := by
  cases i <;> simp [Instr.opcode]

/-- An encoding starts with the opcode byte. -/
@[simp] theorem encode_head? (i : Instr) : (encode i).head? = some i.opcode := rfl

/-- The length of an encoding, read from the opcode byte alone. -/
theorem encode_length (i : Instr) : (encode i).length = i.opcode.toNat / 64 + 1 := by
  rw [encode, List.length_cons, operands_length]

/-- Settles O4: the length is a function of the opcode byte (`encode_length`), which is the encoding's head, and stays
at most 3 since every opcode is below `0xC0`. -/
theorem opcodeAloneFixesLength : Obligations.OpcodeAloneFixesLength := by
  refine ⟨fun i => ?bounds, fun i j sameHead => ?sameLength⟩
  case bounds =>
    have := opcode_lt i
    rw [encode_length]
    omega
  case sameLength =>
    have sameOpcode : i.opcode = j.opcode := by simpa using sameHead
    rw [encode_length, encode_length, sameOpcode]

end Sys2Proof
end

section
/-! PROOFS. ADD and MUL on valid operands (40_alu.md sections 1 and 2). -/

namespace Sys2Proof.Machine

/-- An ALU instruction with valid operands completes with the ALU's result and the pc advance, whenever the ALU
supports the operation. -/
theorem aluInstr_valid {op : AluOp} {a b : Byte} {ra rb : Reg} {s u : State} (ha : Names a ra) (hb : Names b rb)
    (supported : aluApply op ra rb s = .ok u) : aluInstr op a b s = .next (u.advance 2) := by
  simp only [aluInstr, withRegs_valid s _ ha hb, supported, bind, Except.bind, finish_ok]

/-- ADD with valid operands completes with the ALU's sum in the first register. -/
theorem exec_add_valid {a b : Byte} {ra rb : Reg} (s : State) (ha : Names a ra) (hb : Names b rb) :
    exec (.add a b) s = .next ((s.setReg ra (aluAdd (s.reg ra) (s.reg rb))).advance 2) :=
  aluInstr_valid ha hb rfl

/-- MUL with valid operands completes with the ALU's product in the first register. -/
theorem exec_mul_valid {a b : Byte} {ra rb : Reg} (s : State) (ha : Names a ra) (hb : Names b rb) :
    exec (.mul a b) s = .next ((s.setReg ra (aluMul (s.reg ra) (s.reg rb))).advance 2) :=
  aluInstr_valid ha hb rfl

/-- The ALU's sum as a number. -/
theorem aluAdd_toNat (u v : Byte) : (aluAdd u v).toNat = (u.toNat + v.toNat) % 256 :=
  BitVec.toNat_ofNat _ 8

/-- The ALU's product as a number. -/
theorem aluMul_toNat (u v : Byte) : (aluMul u v).toNat = (u.toNat * v.toNat) % 256 :=
  BitVec.toNat_ofNat _ 8

/-- The frame of an instruction with two operand bytes that writes one register: pc moves by 3 and nothing else
changes. -/
theorem setReg_advance_two_frame (s : State) (r : Reg) (v : Byte) :
    ((s.setReg r v).advance 2).pc = s.pc + 3 ∧ SameRegsBut [r] s ((s.setReg r v).advance 2) ∧
      SameBytesBut [] s ((s.setReg r v).advance 2) ∧ ((s.setReg r v).advance 2).fl = s.fl ∧
      ((s.setReg r v).advance 2).output = s.output ∧ SameRun s ((s.setReg r v).advance 2) := by
  refine ⟨advance_pc _ 2, fun q hq => ?others, fun _ _ => rfl, rfl, rfl, rfl, rfl⟩
  case others =>
    have hqr : q ≠ r := by simpa using hq
    rw [reg_advance, reg_setReg_ne s v hqr]

/-- Settles O13: the sum is of the values before, also when both operands name one register, since the completed form
reads both from `s`; the rest is the frame of a register write. -/
theorem addWrapsModulo256 : Obligations.AddWrapsModulo256 := by
  refine fun a b ra rb s ha hb => ⟨rfl, _, exec_add_valid s ha hb, ?sum, setReg_advance_two_frame s ra _⟩
  rw [reg_advance, reg_setReg_self, aluAdd_toNat]

/-- Settles O14: the ALU reduces the exact product modulo 256, and the rest is the frame of a register write. -/
theorem mulKeepsLowByte : Obligations.MulKeepsLowByte := by
  refine fun a b ra rb s ha hb => ⟨rfl, _, exec_mul_valid s ha hb, ?product, setReg_advance_two_frame s ra _⟩
  rw [reg_advance, reg_setReg_self, aluMul_toNat]

end Sys2Proof.Machine
end

section
/-! PROOFS. LDI, PRN and the output trace (41_register_io_halt.md R140, R143, R144). -/

namespace Sys2Proof.Machine

/-! ### LDI and PRN on a valid operand -/

/-- LDI with a valid operand completes with the immediate in its register. -/
theorem exec_ldi_valid {a : Byte} {r : Reg} (imm : Byte) (s : State) (h : Names a r) :
    exec (.ldi a imm) s = .next ((s.setReg r imm).advance 2) :=
  withReg_valid s _ h

/-- PRN with a valid operand completes with its register's byte emitted. -/
theorem exec_prn_valid {a : Byte} {r : Reg} (s : State) (h : Names a r) :
    exec (.prn a) s = .next ((s.emit (s.reg r)).advance 1) :=
  withReg_valid s _ h

/-- Settles O8: a valid operand gives the completed form, whose frame is that of a register write; one above 7 raises
its fault before the handler sees the immediate. -/
theorem ldiLoadsImmediate : Obligations.LdiLoadsImmediate := by
  refine fun a imm s => ⟨rfl, fun r named => ?valid, fun above => ?invalid⟩
  case valid =>
    exact ⟨_, exec_ldi_valid imm s named, reg_setReg_self s r imm, setReg_advance_two_frame s r imm⟩
  case invalid => exact ⟨_, withReg_invalid s _ above, rfl, rfl⟩

/-- Settles O9: the completed form emits and advances pc, and the entry of the fault keeps the output. -/
theorem prnAppendsRegister : Obligations.PrnAppendsRegister := by
  refine fun a s => ⟨rfl, fun r named => ?valid, fun above => ?invalid⟩
  case valid =>
    exact ⟨_, exec_prn_valid s named, rfl, advance_pc _ 1, fun _ _ => rfl, fun _ _ => rfl, rfl, rfl, rfl⟩
  case invalid => exact ⟨_, withReg_invalid s _ above, rfl, rfl⟩

/-! ### Who appends to the output trace -/

/-- A conditional jump leaves the output, taken or not. -/
@[simp] theorem jumpIf_output (taken : Bool) (r : Reg) (s : State) : (jumpIf taken r s).output = s.output := by
  cases taken <;> rfl

/-- Of the completed forms only PRN's touches the output, and it appends its register's byte. -/
theorem Completed.output_cases {i : Instr} {s t : State} (h : Completed s i t) :
    t.output = s.output ∨ ∃ a r, i = .prn a ∧ t.output = s.output ++ [s.reg r] := by
  cases h with
  | prn => exact .inr ⟨_, _, rfl, rfl⟩
  | hlt | ldi | add | mul | push | pop | call | ret | cmp | jmp => exact .inl rfl
  | jeq | jne => exact .inl (jumpIf_output ..)

/-- All that an instruction can do to the output: leave it, as a fault's entry does, or, a PRN, append one register's
byte. -/
theorem exec_output_cases {i : Instr} {s t : State} (h : exec i s = .next t) :
    t.output = s.output ∨ ∃ a r, i = .prn a ∧ t.output = s.output ++ [s.reg r] := by
  rcases exec_next h with completed | ⟨f, rfl, -⟩
  · exact completed.output_cases
  · exact .inl rfl

/-- Every instruction but PRN leaves the output. -/
theorem exec_output_eq {i : Instr} {s t : State} (h : exec i s = .next t) (notPrn : ∀ a, i ≠ .prn a) :
    t.output = s.output := by
  rcases exec_output_cases h with same | ⟨a, r, isPrn, -⟩
  · exact same
  · exact absurd isPrn (notPrn a)

/-- All that a step can do to the output: leave it, or append one byte. A faulting fetch and a stopped machine leave
it. -/
theorem step_output_cases {s t : State} (h : step s = .next t) :
    t.output = s.output ∨ ∃ v, t.output = s.output ++ [v] := by
  by_cases running : s.status = .running
  · rcases step_running running with ⟨i, -, runs⟩ | ⟨f, -, faults⟩
    · rcases exec_output_cases (runs ▸ h) with same | ⟨a, r, -, appended⟩
      · exact .inl same
      · exact .inr ⟨s.reg r, appended⟩
    · cases faults.symm.trans h
      exact .inl rfl
  · cases (step_stopped running).symm.trans h
    exact .inl rfl

/-- LDI then PRN of the same register emits the immediate. -/
theorem exec_ldi_prn {a : Byte} {r : Reg} (v : Byte) (s : State) (h : Names a r) :
    exec (.prn a) ((s.setReg r v).advance 2) =
      .next ((((s.setReg r v).advance 2).emit v).advance 1) := by
  rw [exec_prn_valid _ h, reg_advance, reg_setReg_self]

/-- Settles O11: the case lemmas for `exec` and `step` say who appends and how much, the completed forms say what. -/
theorem outputGrowsOnlyByPrn : Obligations.OutputGrowsOnlyByPrn := by
  refine ⟨fun i s t h notPrn => exec_output_eq h notPrn, fun a r s named => ?prn, fun s t h => ?growth,
    fun a v r s named => ?ldiThenPrn⟩
  case prn => exact ⟨_, exec_prn_valid s named, rfl⟩
  case growth =>
    rcases step_output_cases h with same | ⟨v, appended⟩
    · exact ⟨[], by rw [same, List.append_nil], Nat.zero_le 1⟩
    · exact ⟨[v], appended, Nat.le_refl 1⟩
  case ldiThenPrn => exact ⟨_, _, exec_ldi_valid v s named, exec_ldi_prn v s named, rfl⟩

end Sys2Proof.Machine
end

section
/-! PROOFS. JMP on a valid operand (43_control_transfer.md R185). -/

namespace Sys2Proof.Machine

/-- JMP with a valid operand completes with a jump to its register's value. -/
theorem exec_jmp_valid {a : Byte} {r : Reg} (s : State) (h : Names a r) :
    exec (.jmp a) s = .next (s.jumpTo (s.reg r)) :=
  withReg_valid s _ h

/-- Settles O27: the completed form is one jump, which leaves the register's byte in pc unwrapped (a byte fits the
9-bit pc) and touches no other field. -/
theorem jmpGoesToRegister : Obligations.JmpGoesToRegister := by
  refine fun a r s named => ⟨rfl, _, exec_jmp_valid s named, ?target, ?regs, ?bytes, rfl, rfl, rfl, rfl⟩
  case target => exact jumpTo_pc_toNat s (s.reg r)
  case regs => exact fun q _ => reg_jumpTo s (s.reg r) q
  case bytes => exact fun x _ => byteAt_jumpTo s (s.reg r) x

end Sys2Proof.Machine
end

section
/-! PROOFS. Where a faulting step's fault comes from, and that it is never UnsupportedOperation (60_exceptions.md
R244). -/

namespace Sys2Proof.Machine

/-! ### What a faulting step enters -/

/-- A conditional jump leaves the status, taken or not. -/
@[simp] theorem jumpIf_status (taken : Bool) (r : Reg) (s : State) : (jumpIf taken r s).status = s.status := by
  cases taken <;> rfl

/-- Of the completed forms only HLT's touches the status, and it halts. -/
theorem Completed.status_cases {i : Instr} {s t : State} (h : Completed s i t) :
    t.status = s.status ∨ (i = .hlt ∧ t.status = .halted) := by
  cases h with
  | hlt => exact .inr ⟨rfl, rfl⟩
  | ldi | prn | add | mul | push | pop | call | ret | cmp | jmp => exact .inl rfl
  | jeq | jne => exact .inl (jumpIf_status ..)

/-- An instruction of a running machine that completes leaves it Running or Halted. -/
theorem Completed.status_ne_faulted {i : Instr} {s t : State} (h : Completed s i t) (running : s.status = .running) :
    t.status ≠ .faulted := by
  rcases h.status_cases with same | ⟨-, halted⟩
  · simp [same, running]
  · simp [halted]

/-- All that a running machine's step to Faulted can be: the entry of the fault its fetch raised, or of one the fetched
instruction raised. -/
theorem step_faulted {s t : State} (running : s.status = .running) (h : step s = .next t)
    (faulted : t.status = .faulted) :
    ∃ f, t = s.takeFault f ∧ (s.fetch = .error f ∨ ∃ i, s.fetch = .ok i ∧ Raises i s f) := by
  rcases step_running running with ⟨i, fetched, runs⟩ | ⟨f, failed, faults⟩
  · rcases exec_next (runs ▸ h) with completed | ⟨f, entered, raises⟩
    · exact absurd faulted (completed.status_ne_faulted running)
    · exact ⟨f, entered, .inr ⟨i, fetched, raises⟩⟩
  · cases faults.symm.trans h
    exact ⟨f, rfl, .inl failed⟩

/-! ### Which kinds the two sources raise -/

/-- A failed fetch raises IllegalInstruction or OutOfRange. -/
theorem fetch_error_kind {s : State} {f : Raised} (h : s.fetch = .error f) :
    f.kind = .illegalInstruction ∨ f.kind = .outOfRange := by
  unfold State.fetch at h
  split at h
  next => cases h
  next e _ =>
    cases h
    cases e with
    | illegalOpcode => exact .inl rfl
    | truncated => exact .inr rfl

/-- An instruction raises InvalidRegister or OutOfRange. -/
theorem Raises.kind_cases {i : Instr} {s : State} {f : Raised} (h : Raises i s f) :
    f.kind = .invalidRegister ∨ f.kind = .outOfRange := by
  rcases h with ⟨_, -, -, rfl⟩ | ⟨rfl, -, -⟩
  · exact .inl rfl
  · exact .inr rfl

/-- A step of a running machine to Faulted enters a fault of one of the three kinds other than UnsupportedOperation. -/
theorem step_faulted_kind {s t : State} (running : s.status = .running) (h : step s = .next t)
    (faulted : t.status = .faulted) : ∃ f, t = s.takeFault f ∧ f.kind ≠ .unsupportedOperation := by
  obtain ⟨f, entered, failed | ⟨i, -, raises⟩⟩ := step_faulted running h faulted
  · rcases fetch_error_kind failed with kind | kind <;> exact ⟨f, entered, by simp [kind]⟩
  · rcases raises.kind_cases with kind | kind <;> exact ⟨f, entered, by simp [kind]⟩

/-- Settles O17: the ALU's own answer is its last case; the record of a step to Faulted is that of the fault entered,
which comes from the fetch or from an instruction, and neither raises UnsupportedOperation. -/
theorem unsupportedOperationUnreachable : Obligations.UnsupportedOperationUnreachable := by
  refine ⟨fun _ _ _ _ => rfl, fun s t r running h faulted recorded => ?neverRecorded⟩
  case neverRecorded =>
    obtain ⟨f, rfl, supported⟩ := step_faulted_kind running h faulted
    rw [takeFault_faultRecord] at recorded
    cases recorded
    exact supported

end Sys2Proof.Machine
end

section
/-! PROOFS. The load port on a program that fits (70_reset_and_hazards.md R283). -/

namespace Sys2Proof.Machine

/-- The load of a program of at most 256 bytes answers the state with only memory written, from address 0 up. -/
theorem load_fits (s : State) {program : List Byte} (fits : program.length ≤ 256) :
    s.load program = .next { s with mem := s.mem.writeList 0 program } :=
  if_pos fits

/-- Every cell reads as 0 at reset (10_state.md R39). -/
theorem read_reset_mem (c : Config) (x : Nat) : (State.resetWith c).mem.read x = 0 := (resetState c).1 x

/-- Settles O46: the load is one `writeList` over the reset memory, whose laws give the program's cells and every cell
past them, and it touches no field but memory. -/
theorem loadPlacesTheProgram : Obligations.LoadPlacesTheProgram := by
  refine fun c program fits =>
    ⟨_, load_fits _ fits, ?placed, ?past, fun _ _ => rfl, rfl, rfl, rfl, rfl, rfl⟩
  case placed =>
    intro k inside
    have written := read_writeList_at (State.resetWith c).mem 0 k program inside
    rw [Nat.zero_add] at written
    exact written
  case past =>
    intro x above
    have outside : x < 0 ∨ 0 + program.length ≤ x := .inr (by omega)
    exact (read_writeList_outside _ 0 x program outside).trans (read_reset_mem c x)

end Sys2Proof.Machine
end

section
/-! PROOFS. The decoder against the encoder (30_encoding.md sections 1, 3 and 4). -/

namespace Sys2Proof

/-! ### The rows of the dispatch table -/

/-- The layout belongs to the opcode: what it builds has that opcode, and as operand bytes just those it was given. -/
def Layout.BelongsTo (op : Byte) : Layout → Prop
  | .none i => i.opcode = op ∧ i.operands = []
  | .one build => ∀ a, (build a).opcode = op ∧ (build a).operands = [a]
  | .two build => ∀ a b, (build a b).opcode = op ∧ (build a b).operands = [a, b]

/-- How many operand bytes a layout takes. -/
def Layout.count : Layout → Nat
  | .none _ => 0
  | .one _ => 1
  | .two _ => 2

/-- Every row of the dispatch table is listed and holds the layout of its own opcode. -/
theorem dispatchTable_row {op : Byte} {layout : Layout} (h : dispatchTable op = some layout) :
    layout.BelongsTo op ∧ op ∈ Machine.legalOpcodes := by
  have row {n : Nat} (here : op.toNat = n)
      (holds : layout.BelongsTo (BitVec.ofNat 8 n) ∧ BitVec.ofNat 8 n ∈ Machine.legalOpcodes) :
      layout.BelongsTo op ∧ op ∈ Machine.legalOpcodes := by
    rwa [← here, BitVec.ofNat_toNat, BitVec.setWidth_eq] at holds
  unfold dispatchTable at h
  split at h
  case h_14 => cases h
  all_goals
    cases h
    exact row ‹_› ⟨by simp [Layout.BelongsTo, Instr.opcode, Instr.operands], by decide⟩

/-- The dispatch table has no row for an opcode byte exactly when it is not one of the 13. -/
theorem dispatchTable_eq_none_iff (op : Byte) : dispatchTable op = none ↔ op ∉ Machine.legalOpcodes := by
  constructor
  case mp =>
    intro noRow legal
    have rows : ∀ code ∈ Machine.legalOpcodes, (dispatchTable code).isSome := by decide
    simpa [noRow] using rows op legal
  case mpr =>
    intro illegal
    cases h : dispatchTable op with
    | none => rfl
    | some layout => exact absurd (dispatchTable_row h).2 illegal

/-! ### Taking operands -/

/-- The operands taken are the instruction's own, in front of what is left over. -/
theorem takeOperands_ok {op : Byte} {layout : Layout} {bs rest : List Byte} {i : Instr} (row : layout.BelongsTo op)
    (h : takeOperands layout bs = .ok (i, rest)) : i.opcode = op ∧ bs = i.operands ++ rest := by
  match layout, bs with
  | .none j, bs =>
    cases h
    exact ⟨row.1, by simp [row.2]⟩
  | .one build, a :: bs =>
    cases h
    exact ⟨(row a).1, by simp [(row a).2]⟩
  | .two build, a :: b :: bs =>
    cases h
    exact ⟨(row a b).1, by simp [(row a b).2]⟩

/-- With bytes enough the operands are taken. -/
theorem takeOperands_enough (layout : Layout) {bs : List Byte} (h : layout.count ≤ bs.length) :
    ∃ i rest, takeOperands layout bs = .ok (i, rest) := by
  match layout, bs with
  | .none i, bs => exact ⟨i, bs, rfl⟩
  | .one build, a :: bs => exact ⟨build a, bs, rfl⟩
  | .two build, a :: b :: bs => exact ⟨build a b, bs, rfl⟩
  | .one _, [] | .two _, [] | .two _, [_] => simp [Layout.count] at h

/-- With too few bytes the first byte that is not there is reported. -/
theorem takeOperands_short (layout : Layout) {bs : List Byte} (h : bs.length < layout.count) :
    takeOperands layout bs = .error (.truncated (bs.length + 1)) := by
  match layout, bs with
  | .one _, [] | .two _, [] | .two _, [_] => rfl
  | .none _, bs => simp [Layout.count] at h
  | .one _, a :: bs => simp [Layout.count] at h
  | .two _, a :: b :: bs => simp [Layout.count] at h

/-- Taking operands never reports the opcode: it was looked up before. -/
theorem takeOperands_ne_illegalOpcode (layout : Layout) (bs : List Byte) (op : Byte) :
    takeOperands layout bs ≠ .error (.illegalOpcode op) := by
  intro h
  by_cases enough : layout.count ≤ bs.length
  · obtain ⟨i, rest, taken⟩ := takeOperands_enough layout enough
    simp [taken] at h
  · simp [takeOperands_short layout (Nat.lt_of_not_le enough)] at h

/-! ### Decoding -/

/-- An opcode byte with a row: its layout takes the operands. -/
theorem decode_row {op : Byte} {layout : Layout} (rest : List Byte) (h : dispatchTable op = some layout) :
    decode (op :: rest) = takeOperands layout rest := by
  simp [decode, h]

/-- An opcode byte without a row is rejected. -/
theorem decode_illegal {op : Byte} (rest : List Byte) (h : op ∉ Machine.legalOpcodes) :
    decode (op :: rest) = .error (.illegalOpcode op) := by
  simp [decode, (dispatchTable_eq_none_iff op).mpr h]

/-- Decoding an encoding gives the instruction back, with the bytes after it. -/
theorem decode_encode (i : Instr) (rest : List Byte) : decode (encode i ++ rest) = .ok (i, rest) := by
  cases i <;> rfl

/-- What decodes is an encoding: the row found is the opcode's, and the operands taken are the instruction's. -/
theorem eq_encode_of_decode {bs rest : List Byte} {i : Instr} (h : decode bs = .ok (i, rest)) :
    bs = encode i ++ rest := by
  cases bs with
  | nil => cases h
  | cons op bs =>
    cases found : dispatchTable op with
    | none => simp [decode, found] at h
    | some layout =>
      rw [decode_row bs found] at h
      obtain ⟨rfl, rfl⟩ := takeOperands_ok (dispatchTable_row found).1 h
      rfl

/-- Settles O1: the two directions of the round trip. -/
theorem decodesExactlyTheEncodings : Obligations.DecodesExactlyTheEncodings := by
  intro bs i rest
  constructor
  case mp => exact eq_encode_of_decode
  case mpr =>
    rintro rfl
    exact decode_encode i rest

/-- Settles O2: each row's bytes are the encoding of its instruction. -/
theorem opcodeMapRowsDecode : Obligations.OpcodeMapRowsDecode := fun a b rest =>
  ⟨decode_encode .hlt rest, decode_encode (.ldi a b) rest, decode_encode (.prn a) rest,
    decode_encode (.add a b) rest, decode_encode (.mul a b) rest, decode_encode (.push a) rest,
    decode_encode (.pop a) rest, decode_encode (.call a) rest, decode_encode .ret rest,
    decode_encode (.cmp a b) rest, decode_encode (.jmp a) rest, decode_encode (.jeq a) rest,
    decode_encode (.jne a) rest⟩

/-- Settles O3: only the missing row rejects the opcode, since a row's operands never do. -/
theorem unlistedOpcodesRejected : Obligations.UnlistedOpcodesRejected := by
  refine fun op rest => ⟨fun rejected => ?_, decode_illegal rest⟩
  rw [← dispatchTable_eq_none_iff]
  cases found : dispatchTable op with
  | none => rfl
  | some layout =>
    rw [decode_row rest found] at rejected
    exact absurd rejected (takeOperands_ne_illegalOpcode layout rest op)

/-- Settles O5: the bytes taken are the instruction's operands, which its opcode counts. -/
theorem highBitsGiveOperandCount : Obligations.HighBitsGiveOperandCount := by
  intro op rest tail i h
  obtain ⟨rfl, rfl⟩ : op = i.opcode ∧ rest = i.operands ++ tail := by
    simpa [encode] using eq_encode_of_decode h
  rw [List.length_append, operands_length]

/-- A row's layout takes as many bytes as the opcode's bits 7:6 say. -/
theorem dispatchTable_count {op : Byte} {layout : Layout} (h : dispatchTable op = some layout) :
    layout.count = op.toNat / 64 := by
  have row := (dispatchTable_row h).1
  match layout with
  | .none i => rw [← row.1, ← operands_length, row.2]; rfl
  | .one build => rw [← (row 0).1, ← operands_length, (row 0).2]; rfl
  | .two build => rw [← (row 0 0).1, ← operands_length, (row 0 0).2]; rfl

end Sys2Proof
end

section
/-! PROOFS. What each instruction answers exactly: its completed form, or its one fault (44_execution_loop.md R214 to
R216). -/

namespace Sys2Proof.Machine

/-! ### The completed forms of the instructions not run above -/

/-- HLT halts and advances pc. -/
theorem exec_hlt (s : State) : exec .hlt s = .next (s.halt.advance 0) := rfl

/-- PUSH with a valid operand completes with the register, read after the decrement, stored below. -/
theorem exec_push_valid {a : Byte} {r : Reg} (s : State) (h : Names a r) :
    exec (.push a) s = .next ((s.decSp.setByte (s.sp - 1).toNat (s.decSp.reg r)).advance 1) := by
  simp only [exec, execPush, withReg_valid s _ h, writeTop_eq, sp_decSp, bind, Except.bind, finish_ok]

/-- CALL with a valid operand and a byte for its return address completes with the address pushed and a jump. -/
theorem exec_call_valid {a : Byte} {r : Reg} (s : State) (h : Names a r) (hpc : s.pc.toNat ≤ 253) :
    exec (.call a) s = .next
      ((s.decSp.setByte (s.sp - 1).toNat (BitVec.ofNat 8 (s.pc.toNat + 2))).jumpTo (s.decSp.reg r)) := by
  simp only [exec, execCall, withReg_valid s _ h, returnAddress_byte s hpc, writeTop_eq, sp_decSp, reg_setByte, bind,
    Except.bind, finish_ok]

/-- RET completes with the popped byte in pc, its cell cleared and the stack pointer incremented. -/
theorem exec_ret (s : State) :
    exec .ret s = .next (((s.jumpTo (s.byteAt s.sp.toNat)).setByte s.sp.toNat 0).incSp) := by
  simp only [exec, execRet, readTop_eq, writeTop_eq, sp_jumpTo, bind, Except.bind, finish_ok]

/-- CMP with valid operands completes with the comparison in FL. -/
theorem exec_cmp_valid {a b : Byte} {ra rb : Reg} (s : State) (ha : Names a ra) (hb : Names b rb) :
    exec (.cmp a b) s = .next ((s.setFl (aluCmp (s.reg ra) (s.reg rb))).advance 2) :=
  aluInstr_valid ha hb rfl

/-- JEQ with a valid operand completes with the jump taken if FL is the equal state. -/
theorem exec_jeq_valid {a : Byte} {r : Reg} (s : State) (h : Names a r) :
    exec (.jeq a) s = .next (jumpIf s.isEqual r s) :=
  withReg_valid s _ h

/-- JNE with a valid operand completes with the jump taken unless FL is the equal state. -/
theorem exec_jne_valid {a : Byte} {r : Reg} (s : State) (h : Names a r) :
    exec (.jne a) s = .next (jumpIf (!s.isEqual) r s) :=
  withReg_valid s _ h

/-- A completed form is what the instruction answers: the converse of `exec_next`. -/
theorem Completed.exec_eq {i : Instr} {s t : State} (h : Completed s i t) : exec i s = .next t := by
  cases h with
  | hlt => exact exec_hlt s
  | ldi h => exact exec_ldi_valid _ s h
  | prn h => exact exec_prn_valid s h
  | add ha hb => exact exec_add_valid s ha hb
  | mul ha hb => exact exec_mul_valid s ha hb
  | push h => exact exec_push_valid s h
  | pop h => exact exec_pop_valid s h
  | call h hpc => exact exec_call_valid s h hpc
  | ret => exact exec_ret s
  | cmp ha hb => exact exec_cmp_valid s ha hb
  | jmp h => exact exec_jmp_valid s h
  | jeq h => exact exec_jeq_valid s h
  | jne h => exact exec_jne_valid s h

/-! ### Every instruction and every step answers a next state -/

/-- The end of a step is a next state, whatever its phases answer. -/
theorem finish_answers (s : State) (phases : Except Raised State) : ∃ t, finish s phases = .next t := by
  cases phases with
  | ok t => exact ⟨t, rfl⟩
  | error f => exact ⟨s.takeFault f, rfl⟩

/-- Every instruction is the end of a step, so it answers a next state. -/
theorem exec_answers (i : Instr) (s : State) : ∃ t, exec i s = .next t := by
  cases i with
  | hlt => exact ⟨_, exec_hlt s⟩
  | ldi | prn | add | mul | push | pop | call | ret | cmp | jmp | jeq | jne => exact finish_answers s _

/-- Every step answers a next state: a stopped machine's the same, a running one's that of its instruction or of the
fault its fetch raised. -/
theorem step_answers (s : State) : ∃ t, step s = .next t := by
  by_cases running : s.status = .running
  · rcases step_running running with ⟨i, -, runs⟩ | ⟨f, -, faults⟩
    · exact runs ▸ exec_answers i s
    · exact ⟨_, faults⟩
  · exact ⟨s, step_stopped running⟩

/-- Settles O7: every arm of `exec` ends in `finish`, and a step is one of them, a fault's entry, or nothing. -/
theorem everyStepAnswersNext : Obligations.EveryStepAnswersNext := ⟨exec_answers, step_answers⟩

/-! ### An instruction's one fault -/

/-- A single register operand above 7, found as the first such, is reported. -/
theorem withReg_firstInvalid {a b : Byte} (s : State) (handler : Reg → Except Raised State)
    (h : [a].find? (fun b => 7 < b.toNat) = some b) :
    withReg a s handler = .next (s.faultedWith .invalidRegister b.toNat) := by
  obtain ⟨above, rfl⟩ : 7 < a.toNat ∧ a = b := by simpa using h
  exact withReg_invalid s handler above

/-- The first of two register operands above 7 is reported. -/
theorem withRegs_firstInvalid {a b c : Byte} (s : State) (handler : Reg → Reg → Except Raised State)
    (h : [a, b].find? (fun b => 7 < b.toNat) = some c) :
    withRegs a b s handler = .next (s.faultedWith .invalidRegister c.toNat) := by
  rcases regOperand_cases a with ⟨ra, named, -⟩ | ⟨above, -⟩
  · have notAbove : ¬ 7 < a.toNat := by omega
    obtain ⟨aboveB, rfl⟩ : 7 < b.toNat ∧ b = c := by simpa [notAbove] using h
    exact withRegs_invalid_second s handler named aboveB
  · obtain rfl : a = c := by simpa [above] using h
    exact withRegs_invalid_first b s handler above

/-- Settles O37: the validation of one or of two operands reports the first that is above 7, before any handler runs. -/
theorem invalidRegisterOperandFaults : Obligations.InvalidRegisterOperandFaults := by
  intro i s b first
  cases i with
  | hlt | ret => cases first
  | ldi | prn | push | pop | call | jmp | jeq | jne => exact withReg_firstInvalid s _ first
  | add | mul | cmp => exact withRegs_firstInvalid s _ first

/-- Settles O24: the return address is formed first, so its fault leaves the decrement and the store undone. -/
theorem callWithoutByteReturnFaults : Obligations.CallWithoutByteReturnFaults := by
  intro a r s named past
  simp only [exec, execCall, withReg_valid s _ named, returnAddress_outOfRange s past, bind, Except.bind, finish_error]
  rfl

/-- The fault an instruction raises of its own in `s`, once it is fetched: InvalidRegister of its first register operand
above 7; then, for a CALL without a byte for its return address, OutOfRange of it (60_exceptions.md R246). -/
def ownFault (i : Instr) (s : State) : Option (FaultKind × Nat) :=
  ((i.regOperands.find? fun b => 7 < b.toNat).map fun b => (.invalidRegister, b.toNat)).or
    (if i.opcode = 0x50 ∧ 254 ≤ s.pc.toNat then some (.outOfRange, s.pc.toNat + 2) else none)

/-- Only CALL has CALL's opcode. -/
theorem opcode_eq_call {i : Instr} (h : i.opcode = 0x50) : ∃ a, i = .call a := by
  cases i with
  | call a => exact ⟨a, rfl⟩
  | hlt | ldi | prn | add | mul | push | pop | ret | cmp | jmp | jeq | jne => simp [Instr.opcode] at h

/-- A byte not above 7 names a register. -/
theorem exists_names {b : Byte} (h : ¬ 7 < b.toNat) : ∃ r : Reg, Names b r := ⟨⟨b.toNat, by omega⟩, rfl⟩

/-- An instruction enters the fault it raises of its own. -/
theorem exec_of_ownFault {i : Instr} {s : State} {k : FaultKind} {info : Nat} (h : ownFault i s = some (k, info)) :
    exec i s = .next (s.faultedWith k info) := by
  unfold ownFault at h
  cases first : i.regOperands.find? (fun b => 7 < b.toNat) with
  | some b =>
    obtain ⟨rfl, rfl⟩ : .invalidRegister = k ∧ b.toNat = info := by simpa [first] using h
    exact invalidRegisterOperandFaults i s b first
  | none =>
    obtain ⟨⟨isCall, past⟩, rfl, rfl⟩ :
        (i.opcode = 0x50 ∧ 254 ≤ s.pc.toNat) ∧ .outOfRange = k ∧ s.pc.toNat + 2 = info := by
      simpa [first] using h
    obtain ⟨a, rfl⟩ := opcode_eq_call isCall
    obtain ⟨r, named⟩ := exists_names (b := a) (by simpa [Instr.regOperands] using first)
    exact callWithoutByteReturnFaults a r s named past

/-- What an instruction can raise is its own fault: with none, it raises nothing. -/
theorem Raises.ownFault_ne_none {i : Instr} {s : State} {f : Raised} (h : Raises i s f) : ownFault i s ≠ none := by
  intro noFault
  obtain ⟨valid, notPast⟩ :
      (∀ b ∈ i.regOperands, b.toNat ≤ 7) ∧ (i.opcode = 0x50 → s.pc.toNat < 254) := by
    simpa [ownFault] using noFault
  rcases h with ⟨b, isOperand, above, -⟩ | ⟨-, past, a, rfl⟩
  · exact absurd (valid b isOperand) (by omega)
  · exact absurd (notPast rfl) (by omega)

/-- An instruction that raises no fault of its own completes. -/
theorem exec_completes {i : Instr} {s : State} (h : ownFault i s = none) :
    ∃ t, Completed s i t ∧ exec i s = .next t := by
  obtain ⟨t, answers⟩ := exec_answers i s
  rcases exec_next answers with completed | ⟨f, -, raises⟩
  · exact ⟨t, completed, answers⟩
  · exact absurd h raises.ownFault_ne_none

/-- A well-formed instruction raises no fault of its own at an address below 254. -/
theorem ownFault_eq_none {i : Instr} {s : State} (wf : WellFormed i = true)
    (fits : i.opcode = 0x50 → s.pc.toNat ≤ 253) : ownFault i s = none := by
  have valid : ∀ b ∈ i.regOperands, b.toNat < 8 := by simpa [WellFormed] using wf
  have none_above : i.regOperands.find? (fun b => 7 < b.toNat) = none := by
    simpa using fun b isOperand => Nat.le_of_lt_succ (valid b isOperand)
  have notPast : ¬ (i.opcode = 0x50 ∧ 254 ≤ s.pc.toNat) := fun ⟨isCall, past⟩ => by have := fits isCall; omega
  simp only [ownFault, none_above, if_neg notPast, Option.map_none, Option.or_none]

end Sys2Proof.Machine
end

section
/-! PROOFS. What a completed instruction changes: the frames over all instructions (10_state.md R24, 20_memory.md R69,
44_execution_loop.md R215). -/

namespace Sys2Proof.Machine

/-! ### Registers -/

/-- A conditional jump leaves every register, taken or not. -/
@[simp] theorem reg_jumpIf (taken : Bool) (r : Reg) (s : State) (q : Reg) : (jumpIf taken r s).reg q = s.reg q := by
  cases taken <;> rfl

/-- A register an operand byte does not name is not the one it names. -/
theorem ne_of_names {b : Byte} {q r : Reg} (h : Names b r) (other : ¬ Names b q) : q ≠ r :=
  fun same => other (same ▸ h)

/-- A completed form leaves every register the table of register writes does not list. -/
theorem Completed.reg_eq {i : Instr} {s t : State} {q : Reg} (h : Completed s i t) (unlisted : ¬ mayWriteReg i q) :
    t.reg q = s.reg q := by
  cases h with
  | hlt | prn | cmp | jmp => rfl
  | jeq | jne => exact reg_jumpIf ..
  | ldi named => rw [reg_advance, reg_setReg_ne _ _ (ne_of_names named unlisted)]
  | add named | mul named => rw [reg_advance, reg_setReg_ne _ _ (ne_of_names named unlisted)]
  | push =>
    have notSp : q ≠ 7 := unlisted
    rw [reg_advance, reg_setByte, decSp_eq, reg_setReg_ne _ _ notSp]
  | call =>
    have notSp : q ≠ 7 := unlisted
    rw [reg_jumpTo, reg_setByte, decSp_eq, reg_setReg_ne _ _ notSp]
  | ret =>
    have notSp : q ≠ 7 := unlisted
    rw [incSp_eq, reg_setReg_ne _ _ notSp, reg_setByte, reg_jumpTo]
  | pop named =>
    obtain ⟨other, notSp⟩ := not_or.mp unlisted
    rw [reg_advance, incSp_eq, reg_setReg_ne _ _ notSp, reg_setByte, reg_setReg_ne _ _ (ne_of_names named other)]

/-- Settles O35: a completed form keeps to the table, and a fault's entry writes no register. -/
theorem registersChangeByTheTable : Obligations.RegistersChangeByTheTable := by
  intro i s t r h changed
  by_contra unlisted
  rcases exec_next h with completed | ⟨f, rfl, -⟩
  · exact changed (completed.reg_eq unlisted)
  · exact changed (reg_takeFault s f r)

/-! ### Memory -/

/-- A conditional jump leaves memory, taken or not. -/
@[simp] theorem jumpIf_mem (taken : Bool) (r : Reg) (s : State) : (jumpIf taken r s).mem = s.mem := by
  cases taken <;> rfl

/-- A byte is a valid address. -/
theorem byte_le (v : Byte) : v.toNat ≤ 255 := Nat.le_of_lt_succ v.isLt

/-- The stack pointer after POP's load: the loaded byte for POP R7, else the one before. -/
theorem sp_popLoad {a : Byte} {r : Reg} (s : State) (named : Names a r) (v : Byte) :
    (s.setReg r v).sp.toNat = if Names a 7 then v.toNat else s.sp.toNat := by
  have isSp : r = 7 ↔ Names a 7 := by rw [Names, named]; exact Fin.ext_iff
  simp only [sp_setReg, isSp]
  split <;> rfl

/-- A completed form leaves memory, or writes the one cell of its store address, POP and RET with 0. -/
theorem Completed.mem_cases {i : Instr} {s t : State} (h : Completed s i t) :
    t.mem = s.mem ∨ ∃ x v, storeAddress s i = some x ∧ x ≤ 255 ∧ t.mem = s.mem.write x v ∧
      ((∃ a, i = .pop a) ∨ i = .ret → v = 0) := by
  cases h with
  | hlt | ldi | prn | add | mul | cmp | jmp => exact .inl rfl
  | jeq | jne => exact .inl (jumpIf_mem ..)
  | push | call => exact .inr ⟨_, _, rfl, byte_le _, rfl, by simp⟩
  | pop named => exact .inr ⟨_, 0, congrArg some (sp_popLoad s named _).symm, byte_le _, rfl, fun _ => rfl⟩
  | ret => exact .inr ⟨_, 0, rfl, byte_le _, rfl, fun _ => rfl⟩

/-- Settles O36: a changed cell is the one a completed form writes; a fault's entry writes none. -/
theorem memoryChangesByTheTable : Obligations.MemoryChangesByTheTable := by
  intro i s t x h changed
  rcases exec_next h with completed | ⟨f, rfl, -⟩
  · rcases completed.mem_cases with same | ⟨y, v, stored, -, written, cleared⟩
    · exact absurd (congrArg (·.read x) same) changed
    · have read : t.byteAt x = if x = y then v else s.byteAt x := by
        rw [State.byteAt, written, read_write]; rfl
      obtain rfl : x = y := by
        by_contra other
        exact changed (by rw [read, if_neg other])
      exact ⟨stored, fun clears => by rw [read, if_pos rfl, cleared clears]⟩
  · exact absurd (byteAt_takeFault s f x) changed

/-- A completed form keeps memory canonical. -/
theorem Completed.mem_wf {i : Instr} {s t : State} (h : Completed s i t) (wf : s.mem.wf) : t.mem.wf := by
  rcases h.mem_cases with same | ⟨x, v, -, inRange, written, -⟩
  · rwa [same]
  · rw [written]; exact write_wf v wf (Nat.lt_succ_of_le inRange)

/-! ### The program counter -/

/-- A completed form advances pc by the instruction's length, or, a transfer, puts a byte in it. -/
theorem Completed.pc_cases {i : Instr} {s t : State} (h : Completed s i t) :
    t.pc = s.pc + BitVec.ofNat 9 (encode i).length ∨ (ownsPc i = true ∧ t.pc.toNat ≤ 255) := by
  have jumped (u : State) (v : Byte) : (u.jumpTo v).pc.toNat ≤ 255 := (jumpTo_pc_toNat u v).le.trans (byte_le v)
  have jumpIf_cases (taken : Bool) (r : Reg) :
      (jumpIf taken r s).pc = s.pc + 2 ∨ (jumpIf taken r s).pc.toNat ≤ 255 := by
    cases taken
    · exact .inl (advance_pc s 1)
    · exact .inr (jumped s (s.reg r))
  cases h with
  | hlt => exact .inl (advance_pc _ 0)
  | prn | push | pop => exact .inl (advance_pc _ 1)
  | ldi | add | mul | cmp => exact .inl (advance_pc _ 2)
  | call | jmp => exact .inr ⟨rfl, jumped _ _⟩
  | ret => exact .inr ⟨rfl, jumped s _⟩
  | jeq | jne => exact (jumpIf_cases _ _).imp_right fun inRange => ⟨rfl, inRange⟩

/-- A transfer is at most two bytes long. -/
theorem encode_length_of_ownsPc {i : Instr} (h : ownsPc i = true) : (encode i).length ≤ 2 := by
  cases i with
  | call | jmp | jeq | jne => exact Nat.le_refl 2
  | ret => exact Nat.le_succ 1
  | hlt | ldi | prn | add | mul | push | pop | cmp => cases h

/-- A pc advance that stays in 0..256 does not wrap. -/
theorem pc_add_toNat {p : PC} {n : Nat} (h : p.toNat + n ≤ 256) : (p + BitVec.ofNat 9 n).toNat = p.toNat + n := by
  simp only [BitVec.toNat_add, BitVec.toNat_ofNat]
  omega

/-- Settles O32: the transfer completes, since a CALL below 254 has a byte for its return address; it puts a byte in pc
or, a jump not taken, falls through over at most two bytes. -/
theorem transfersStayInMemory : Obligations.TransfersStayInMemory := by
  intro i s owns wf below
  obtain ⟨t, completed, answers⟩ := exec_completes (ownFault_eq_none wf fun _ => below)
  refine ⟨t, answers, ?_⟩
  rcases completed.pc_cases with advanced | ⟨-, inRange⟩
  · have short := encode_length_of_ownsPc owns
    rw [advanced, pc_add_toNat (by omega)]
    omega
  · exact inRange

/-- Settles O33: it completes, since only CALL can fault with valid operands, and then it does not own pc. -/
theorem otherHandlersAdvancePc : Obligations.OtherHandlersAdvancePc := by
  intro i s notOwns wf
  have notCall (isCall : i.opcode = 0x50) : s.pc.toNat ≤ 253 := by
    obtain ⟨a, rfl⟩ := opcode_eq_call isCall
    cases notOwns
  obtain ⟨t, completed, answers⟩ := exec_completes (ownFault_eq_none wf notCall)
  refine ⟨t, answers, ?_⟩
  rcases completed.pc_cases with advanced | ⟨owns, -⟩
  · exact advanced
  · exact absurd (notOwns.symm.trans owns) Bool.false_ne_true

/-- A completed form that ends inside memory leaves pc in 0..256 (10_state.md R29). -/
theorem Completed.pc_le {i : Instr} {s t : State} (h : Completed s i t)
    (fits : s.pc.toNat + (encode i).length ≤ 256) : t.pc.toNat ≤ 256 := by
  rcases h.pc_cases with advanced | ⟨-, inRange⟩
  · rwa [advanced, pc_add_toNat fits]
  · omega

/-! ### FL and the fault record -/

/-- The comparison's result is one of FL's three states. -/
theorem aluCmp_state (u v : Byte) : aluCmp u v = 0x01 ∨ aluCmp u v = 0x02 ∨ aluCmp u v = 0x04 := by
  rcases aluCmp_cases u v with ⟨-, equal⟩ | ⟨-, greater⟩ | ⟨-, less⟩
  · exact .inl equal
  · exact .inr (.inl greater)
  · exact .inr (.inr less)

/-- A completed form leaves FL, or, a CMP, puts one of the three states in it. -/
theorem Completed.fl_cases {i : Instr} {s t : State} (h : Completed s i t) :
    t.fl = s.fl ∨ t.fl = 0x01 ∨ t.fl = 0x02 ∨ t.fl = 0x04 := by
  cases h with
  | cmp => exact .inr (aluCmp_state _ _)
  | hlt | ldi | prn | add | mul | push | pop | call | ret | jmp => exact .inl rfl
  | jeq | jne => exact .inl (jumpIf_fl ..)

/-- A completed form leaves the fault record. -/
theorem Completed.faultRecord_eq {i : Instr} {s t : State} (h : Completed s i t) : t.faultRecord = s.faultRecord := by
  have jumpIf_faultRecord (taken : Bool) (r : Reg) : (jumpIf taken r s).faultRecord = s.faultRecord := by
    cases taken <;> rfl
  cases h with
  | hlt | ldi | prn | add | mul | push | pop | call | ret | cmp | jmp => rfl
  | jeq | jne => exact jumpIf_faultRecord ..

end Sys2Proof.Machine
end

section
/-! PROOFS. The fetch, the step, and the priority of faults (44_execution_loop.md section 1, 60_exceptions.md R246). -/

namespace Sys2Proof.Machine

/-! ### The fetch, by the address and the opcode at it -/

/-- The byte at pc, where a step fetches the opcode (44_execution_loop.md R211). -/
abbrev State.opcodeAtPc (s : State) : Byte := s.byteAt s.pc.toNat

/-- What the decoder answers gives what the fetch answers. -/
theorem fetch_of_decode {s : State} {i : Instr} {rest : List Byte}
    (h : decode (s.bytesFrom s.pc.toNat 3) = .ok (i, rest)) : s.fetch = .ok i := by
  simp only [State.fetch, h]

/-- A failed decode gives the fault the fetch raises. -/
theorem fetch_of_decode_error {s : State} {e : DecodeError} (h : decode (s.bytesFrom s.pc.toNat 3) = .error e) :
    s.fetch = .error (raisedBy s.pc e) := by
  simp only [State.fetch, h]

/-- An instruction fetched is encoded at pc. -/
theorem encode_of_fetch {s : State} {i : Instr} (h : s.fetch = .ok i) :
    ∃ rest, s.bytesFrom s.pc.toNat 3 = encode i ++ rest := by
  cases decoded : decode (s.bytesFrom s.pc.toNat 3) with
  | error e => rw [fetch_of_decode_error decoded] at h; cases h
  | ok answer =>
    obtain ⟨j, rest⟩ := answer
    rw [fetch_of_decode decoded] at h
    cases h
    exact ⟨rest, eq_encode_of_decode decoded⟩

/-- Past address 255 the opcode fetch raises OutOfRange of the address. -/
theorem fetch_pastEnd {s : State} (past : 255 < s.pc.toNat) :
    s.fetch = .error { kind := .outOfRange, info := s.pc.toNat } :=
  fetch_of_decode_error (e := .truncated 0) (by rw [bytesFrom_past s 3 past]; rfl)

/-- An opcode byte that is not listed raises IllegalInstruction, whatever follows. -/
theorem fetch_illegal {s : State} (inRange : s.pc.toNat ≤ 255) (illegal : s.opcodeAtPc ∉ legalOpcodes) :
    s.fetch = .error { kind := .illegalInstruction, info := s.opcodeAtPc.toNat } :=
  fetch_of_decode_error (e := .illegalOpcode s.opcodeAtPc)
    (by rw [bytesFrom_cons s 2 inRange]; exact decode_illegal _ illegal)

/-- A listed opcode has a layout that takes as many bytes as its bits 7:6 say, at most two, from those after it. -/
theorem decode_legal {s : State} (inRange : s.pc.toNat ≤ 255) (legal : s.opcodeAtPc ∈ legalOpcodes) :
    ∃ layout : Layout, layout.count = s.opcodeAtPc.toNat / 64 ∧ layout.count ≤ 2 ∧
      decode (s.bytesFrom s.pc.toNat 3) = takeOperands layout (s.bytesFrom (s.pc.toNat + 1) 2) := by
  cases found : dispatchTable s.opcodeAtPc with
  | none => exact absurd legal ((dispatchTable_eq_none_iff _).mp found)
  | some layout =>
    refine ⟨layout, dispatchTable_count found, ?_, ?_⟩
    · cases layout <;> simp [Layout.count]
    · rw [bytesFrom_cons s 2 inRange, decode_row _ found]

/-- When its operand bytes do not fit, the fetch raises OutOfRange of the first address past the end. -/
theorem fetch_short {s : State} (inRange : s.pc.toNat ≤ 255) (legal : s.opcodeAtPc ∈ legalOpcodes)
    (past : 255 < s.pc.toNat + s.opcodeAtPc.toNat / 64) : s.fetch = .error { kind := .outOfRange, info := 256 } := by
  obtain ⟨layout, count, atMost, decoded⟩ := decode_legal inRange legal
  have held : (s.bytesFrom (s.pc.toNat + 1) 2).length = 255 - s.pc.toNat := by
    rw [bytesFrom_length]; omega
  rw [takeOperands_short layout (by omega), held] at decoded
  rw [fetch_of_decode_error decoded, raisedBy, show s.pc.toNat + (255 - s.pc.toNat + 1) = 256 by omega]

/-- When its operand bytes fit, the instruction is fetched. -/
theorem fetch_fits {s : State} (inRange : s.pc.toNat ≤ 255) (legal : s.opcodeAtPc ∈ legalOpcodes)
    (fits : s.pc.toNat + s.opcodeAtPc.toNat / 64 ≤ 255) : ∃ i, s.fetch = .ok i := by
  obtain ⟨layout, count, atMost, decoded⟩ := decode_legal inRange legal
  have enough : layout.count ≤ (s.bytesFrom (s.pc.toNat + 1) 2).length := by
    rw [bytesFrom_length]; omega
  obtain ⟨i, rest, taken⟩ := takeOperands_enough layout enough
  exact ⟨i, fetch_of_decode (decoded.trans taken)⟩

/-! ### An instruction fetched lies in memory -/

/-- The instruction fetched ends at or before address 255. -/
theorem fetch_inMemory {s : State} {i : Instr} (h : s.fetch = .ok i) : s.pc.toNat + (encode i).length ≤ 256 := by
  obtain ⟨rest, bytes⟩ := encode_of_fetch h
  have length := congrArg List.length bytes
  have := encode_length i
  rw [bytesFrom_length, List.length_append] at length
  omega

/-- Byte `k` of the instruction fetched is the cell `k` addresses up from pc. -/
theorem fetch_getElem {s : State} {i : Instr} (h : s.fetch = .ok i) (k : Nat) (hk : k < (encode i).length) :
    (encode i)[k] = s.byteAt (s.pc.toNat + k) := by
  obtain ⟨rest, bytes⟩ := encode_of_fetch h
  rw [← bytesFrom_getElem s s.pc.toNat 3 k (by rw [bytes, List.length_append]; omega)]
  simp only [bytes, List.getElem_append_left hk]

/-- The opcode of the instruction fetched is the byte at pc. -/
theorem fetch_opcode {s : State} {i : Instr} (h : s.fetch = .ok i) : i.opcode = s.opcodeAtPc :=
  fetch_getElem h 0 (Nat.succ_pos _)

/-- Bytes that lie in memory from an address up lead the bytes read from it. -/
theorem bytesFrom_prefix {s : State} {x n : Nat} {bs : List Byte} (few : bs.length ≤ n) (fits : x + bs.length ≤ 256)
    (bytes : ∀ k (h : k < bs.length), s.byteAt (x + k) = bs[k]) : bs <+: s.bytesFrom x n := by
  rw [List.prefix_iff_getElem]
  refine ⟨by rw [bytesFrom_length]; omega, fun k hk => ?_⟩
  rw [bytesFrom_getElem, bytes k hk]

/-- Bytes in memory at pc that decode to an instruction, whole, make the fetch answer it. -/
theorem fetch_of_bytes {s : State} {i : Instr} {bs : List Byte} (fits : s.pc.toNat + bs.length ≤ 256)
    (bytes : ∀ k (h : k < bs.length), s.byteAt (s.pc.toNat + k) = bs[k]) (decoded : decode bs = .ok (i, [])) :
    s.fetch = .ok i := by
  have few : bs.length ≤ 3 := by
    rw [eq_encode_of_decode decoded, List.append_nil]
    exact (opcodeAloneFixesLength.1 i).2
  obtain ⟨more, held⟩ := bytesFrom_prefix few fits bytes
  exact fetch_of_decode (held ▸ decode_append more decoded)

/-! ### The step of a running machine -/

/-- A fetched instruction runs. -/
theorem step_of_fetch {s : State} {i : Instr} (running : s.status = .running) (h : s.fetch = .ok i) :
    step s = exec i s := by
  simp only [step, running, h]

/-- A fault of the fetch is entered. -/
theorem step_of_fetch_error {s : State} {f : Raised} (running : s.status = .running) (h : s.fetch = .error f) :
    step s = .next (s.faultedWith f.kind f.info) := by
  simp only [step, running, h, finish_error]
  rfl

/-- Settles O6: those bytes make the fetch answer `i`. -/
theorem stepRunsDecodedInstruction : Obligations.StepRunsDecodedInstruction :=
  fun _ _ _ running fits bytes decoded => step_of_fetch running (fetch_of_bytes fits bytes decoded)

/-- An opcode byte that is not listed is the step's fault. -/
theorem step_illegal {s : State} (running : s.status = .running) (inRange : s.pc.toNat ≤ 255)
    (illegal : s.opcodeAtPc ∉ legalOpcodes) :
    step s = .next (s.faultedWith .illegalInstruction s.opcodeAtPc.toNat) :=
  step_of_fetch_error running (fetch_illegal inRange illegal)

/-- Settles O38: the fault's entry, which holds the record and leaves registers, memory and output. -/
theorem illegalOpcodeFaults : Obligations.IllegalOpcodeFaults := fun _ running inRange illegal =>
  ⟨_, step_illegal running inRange illegal, rfl, rfl, fun _ _ => rfl, fun _ _ => rfl, rfl⟩

/-- Settles O40: the fetch's first check. -/
theorem opcodeFetchPastEndFaults : Obligations.OpcodeFetchPastEndFaults :=
  fun _ running past => step_of_fetch_error running (fetch_pastEnd past)

/-- Settles O39: the fetch's two answers for a listed opcode; the bytes are compared one by one. -/
theorem operandFetchStaysInMemory : Obligations.OperandFetchStaysInMemory := by
  refine fun s running inRange legal => ⟨fun fits => ?inMemory, fun past => ?past⟩
  case inMemory =>
    obtain ⟨i, fetched⟩ := fetch_fits inRange legal fits
    refine ⟨i, fetched, List.ext_getElem ?_ fun k hk _ => ?_⟩
    · rw [encode_length, fetch_opcode fetched, List.length_map, List.length_range]
    · rw [fetch_getElem fetched k hk, List.getElem_map, List.getElem_range]
  case past => exact ⟨_, step_of_fetch_error running (fetch_short inRange legal past), rfl, rfl⟩

/-- Settles O41: a step to Faulted is one fault's entry. -/
theorem faultsArePrecise : Obligations.FaultsArePrecise := by
  intro s t running h faulted
  obtain ⟨f, entered, -⟩ := step_faulted running h faulted
  exact ⟨f.kind, f.info, entered⟩

/-! ### The priority list against the fetch and the instruction -/

/-- Operand bytes that do not fit are on the list as OutOfRange of 256: the first one missing if the opcode is the last
byte of memory, the second if it is the last but one. -/
theorem firstFault_short {s : State} (inRange : s.pc.toNat ≤ 255) (legal : s.opcodeAtPc ∈ legalOpcodes)
    (past : 255 < s.pc.toNat + s.opcodeAtPc.toNat / 64) : firstFault s = some (.outOfRange, 256) := by
  obtain ⟨layout, counted, atMost, -⟩ := decode_legal inRange legal
  have notPast : ¬ 255 < s.pc.toNat := Nat.not_lt.mpr inRange
  obtain last | lastButOne : s.pc.toNat = 255 ∨ s.pc.toNat = 254 := by omega
  · have missing : 1 ≤ s.opcodeAtPc.toNat / 64 ∧ 255 < s.pc.toNat + 1 := by omega
    simp only [firstFault, if_neg notPast, if_neg (not_not.mpr legal), if_pos missing]
    rw [last]
  · have held : ¬ (1 ≤ s.opcodeAtPc.toNat / 64 ∧ 255 < s.pc.toNat + 1) := by omega
    have missing : 2 ≤ s.opcodeAtPc.toNat / 64 ∧ 255 < s.pc.toNat + 2 := by omega
    simp only [firstFault, if_neg notPast, if_neg (not_not.mpr legal), if_neg held, if_pos missing]
    rw [lastButOne]

/-- A fault the fetch raises is the first of the priority list. -/
theorem firstFault_of_fetch_error {s : State} {f : Raised} (h : s.fetch = .error f) :
    firstFault s = some (f.kind, f.info) := by
  by_cases past : 255 < s.pc.toNat
  · cases h.symm.trans (fetch_pastEnd past)
    simp only [firstFault, if_pos past]
  have inRange := Nat.le_of_not_lt past
  by_cases legal : s.opcodeAtPc ∈ legalOpcodes
  case neg =>
    cases h.symm.trans (fetch_illegal inRange legal)
    simp only [firstFault, if_neg past, if_pos legal]
  by_cases fits : s.pc.toNat + s.opcodeAtPc.toNat / 64 ≤ 255
  · obtain ⟨i, fetched⟩ := fetch_fits inRange legal fits
    cases h.symm.trans fetched
  · cases h.symm.trans (fetch_short inRange legal (Nat.lt_of_not_le fits))
    exact firstFault_short inRange legal (Nat.lt_of_not_le fits)

/-- The operand bytes of the instruction fetched lead the two bytes after the opcode. -/
theorem fetch_operands {s : State} {i : Instr} (h : s.fetch = .ok i) :
    i.operands <+: [s.byteAt (s.pc.toNat + 1), s.byteAt (s.pc.toNat + 2)] := by
  have atMost : i.operands.length ≤ 2 := by have := opcode_lt i; rw [operands_length]; omega
  have operand (k : Nat) (hk : k < i.operands.length) : i.operands[k] = s.byteAt (s.pc.toNat + (k + 1)) :=
    fetch_getElem h (k + 1) (Nat.succ_lt_succ hk)
  rw [List.prefix_iff_getElem]
  refine ⟨atMost, fun k hk => (operand k hk).trans ?_⟩
  obtain rfl | rfl : k = 0 ∨ k = 1 := by omega
  · rfl
  · rfl

/-- The first register operand above 7, by the opcode: the first operand byte if there is one, then the second, which is
a register in every instruction but LDI (30_encoding.md R86). -/
theorem find?_regOperands {i : Instr} {opA opB : Byte} (h : i.operands <+: [opA, opB]) :
    i.regOperands.find? (fun b => 7 < b.toNat) =
      if 1 ≤ i.opcode.toNat / 64 ∧ 7 < opA.toNat then some opA
      else if 2 ≤ i.opcode.toNat / 64 ∧ i.opcode ≠ 0x82 ∧ 7 < opB.toNat then some opB
      else none := by
  cases i with
  | hlt | ret => simp [Instr.regOperands, Instr.opcode]
  | prn a | push a | pop a | call a | jmp a | jeq a | jne a =>
    obtain rfl : a = opA := by simpa [Instr.operands] using h
    by_cases above : 7 < a.toNat <;> simp [Instr.regOperands, Instr.opcode, above]
  | ldi a imm =>
    obtain ⟨rfl, -⟩ : a = opA ∧ imm = opB := by simpa [Instr.operands] using h
    by_cases above : 7 < a.toNat <;> simp [Instr.regOperands, Instr.opcode, above]
  | add a b | mul a b | cmp a b =>
    obtain ⟨rfl, rfl⟩ : a = opA ∧ b = opB := by simpa [Instr.operands] using h
    by_cases aboveA : 7 < a.toNat <;> by_cases aboveB : 7 < b.toNat <;>
      simp [Instr.regOperands, Instr.opcode, aboveA, aboveB]

/-- The opcode of the instruction fetched is listed. -/
theorem fetch_legal {s : State} {i : Instr} (h : s.fetch = .ok i) : s.opcodeAtPc ∈ legalOpcodes := by
  by_contra illegal
  have inMemory := fetch_inMemory h
  rw [encode_length] at inMemory
  cases h.symm.trans (fetch_illegal (by omega) illegal)

/-- After a fetch the rest of the priority list is the instruction's own fault. -/
theorem firstFault_of_fetch {s : State} {i : Instr} (h : s.fetch = .ok i) : firstFault s = ownFault i s := by
  have inMemory := fetch_inMemory h
  rw [encode_length, fetch_opcode h] at inMemory
  have inRange : ¬ 255 < s.pc.toNat := by omega
  have heldA : ¬ (1 ≤ s.opcodeAtPc.toNat / 64 ∧ 255 < s.pc.toNat + 1) := by omega
  have heldB : ¬ (2 ≤ s.opcodeAtPc.toNat / 64 ∧ 255 < s.pc.toNat + 2) := by omega
  have atEnd : (s.opcodeAtPc = 0x50 ∧ 254 ≤ s.pc.toNat) ↔ (s.opcodeAtPc = 0x50 ∧ s.pc.toNat = 254) := by
    refine and_congr_right fun isCall => ?_
    rw [isCall, show (0x50 : Byte).toNat / 64 = 1 from rfl] at inMemory
    omega
  have callFault : (if s.opcodeAtPc = 0x50 ∧ 254 ≤ s.pc.toNat then
      some (FaultKind.outOfRange, s.pc.toNat + 2) else none) =
      if s.opcodeAtPc = 0x50 ∧ s.pc.toNat = 254 then some (.outOfRange, 256) else none :=
    if_ctx_congr atEnd (fun last => by rw [last.2]) fun _ => rfl
  simp only [firstFault, if_neg inRange, if_neg (not_not.mpr (fetch_legal h)), if_neg heldA, if_neg heldB]
  rw [ownFault, find?_regOperands (fetch_operands h), fetch_opcode h, callFault]
  split_ifs <;> rfl

/-- All that a running machine's step can be: the entry of the priority list's first fault, or, when it names none, the
completion of the instruction fetched. -/
theorem step_cases {s : State} (running : s.status = .running) :
    (∃ k info, firstFault s = some (k, info) ∧ step s = .next (s.faultedWith k info)) ∨
      (firstFault s = none ∧ ∃ i t, s.fetch = .ok i ∧ Completed s i t ∧ step s = .next t) := by
  cases fetched : s.fetch with
  | error f => exact .inl ⟨_, _, firstFault_of_fetch_error fetched, step_of_fetch_error running fetched⟩
  | ok i =>
    rw [firstFault_of_fetch fetched, step_of_fetch running fetched]
    cases raised : ownFault i s with
    | some fault => exact .inl ⟨fault.1, fault.2, rfl, exec_of_ownFault raised⟩
    | none =>
      obtain ⟨t, completed, answers⟩ := exec_completes raised
      exact .inr ⟨rfl, i, t, rfl, completed, answers⟩

/-- Settles O42: the two cases of a running machine's step. -/
theorem stepFaultsInPriorityOrder : Obligations.StepFaultsInPriorityOrder := by
  intro s running
  rcases step_cases running with ⟨k, info, named, faults⟩ | ⟨unnamed, i, t, -, completed, answers⟩
  · refine ⟨fun k' info' named' => ?_, fun unnamed => ?_⟩
    · cases named.symm.trans named'
      exact faults
    · cases named.symm.trans unnamed
  · refine ⟨fun k info named => ?_, fun _ => ?_⟩
    · cases unnamed.symm.trans named
    · exact ⟨t, answers, completed.status_ne_faulted running, completed.faultRecord_eq⟩

end Sys2Proof.Machine
end

section
/-! PROOFS. Runs that change nothing, and the output trace no step reads (44_execution_loop.md R217, R219,
60_exceptions.md section 5). -/

namespace Sys2Proof.Machine

/-! ### Runs from a fixed point -/

/-- A state whose step answers itself is all that any number of steps answers. -/
theorem run_fixed {s : State} (fixed : step s = .next s) (k : Nat) : Host.Core.run core k s = .next s := by
  induction k with
  | zero => rfl
  | succ k ih =>
    have stepped : core.step s = .next s := fixed
    simpa only [Host.Core.run, stepped] using ih

/-- Settles O43: a stopped machine's step answers the same state. -/
theorem stoppedMachineNeverChanges : Obligations.StoppedMachineNeverChanges :=
  fun _ k stopped => run_fixed (step_stopped stopped) k

/-- A jump to the address pc holds changes nothing. -/
theorem jumpTo_pc_self {s : State} {v : Byte} (here : v.toNat = s.pc.toNat) : s.jumpTo v = s :=
  state_ext (reg_jumpTo s v) (BitVec.eq_of_toNat_eq ((jumpTo_pc_toNat s v).trans here)) rfl rfl rfl rfl rfl

/-- Settles O34: the two bytes at pc are a JMP to pc itself, so the state is a fixed point of the step. -/
theorem selfJumpNeverEnds : Obligations.SelfJumpNeverEnds := by
  intro s r running inRange opcode named here k
  have bytes : ∀ k (h : k < (encode (.jmp (s.byteAt (s.pc.toNat + 1)))).length),
      s.byteAt (s.pc.toNat + k) = (encode (.jmp (s.byteAt (s.pc.toNat + 1))))[k]
    | 0, _ => opcode
    | 1, _ => rfl
  have fits : s.pc.toNat + (encode (.jmp (s.byteAt (s.pc.toNat + 1)))).length ≤ 256 := Nat.add_le_add_right inRange 2
  have decoded := decode_encode (.jmp (s.byteAt (s.pc.toNat + 1))) []
  rw [List.append_nil] at decoded
  refine run_fixed ?_ k
  rw [stepRunsDecodedInstruction s _ _ running fits bytes decoded, exec_jmp_valid s named, jumpTo_pc_self here]

/-! ### Earlier output -/

/-- The state with bytes put before its output. -/
def State.prependOutput (s : State) (earlier : List Byte) : State := { s with output := earlier ++ s.output }

/-- A conditional jump does not read the output. -/
theorem jumpIf_prependOutput (taken : Bool) (r : Reg) (s : State) (earlier : List Byte) :
    jumpIf taken r (s.prependOutput earlier) = (jumpIf taken r s).prependOutput earlier := by
  cases taken <;> rfl

/-- Emitting appends, whatever stands before. -/
theorem emit_prependOutput (s : State) (v : Byte) (earlier : List Byte) :
    (s.prependOutput earlier).emit v = (s.emit v).prependOutput earlier := by
  simp only [State.emit, State.prependOutput, List.append_assoc]

/-- An instruction's completed form carries earlier output along. -/
theorem Completed.prependOutput {i : Instr} {s t : State} (h : Completed s i t) (earlier : List Byte) :
    Completed (s.prependOutput earlier) i (t.prependOutput earlier) := by
  cases h with
  | hlt => exact .hlt
  | ldi h => exact .ldi h
  | @prn _ r h =>
    have emitted := Completed.prn (s := s.prependOutput earlier) h
    rw [emit_prependOutput] at emitted
    exact emitted
  | add ha hb => exact .add ha hb
  | mul ha hb => exact .mul ha hb
  | push h => exact .push h
  | pop h => exact .pop h
  | call h hpc => exact .call h hpc
  | ret => exact .ret
  | cmp ha hb => exact .cmp ha hb
  | jmp h => exact .jmp h
  | jeq h => exact jumpIf_prependOutput _ _ s earlier ▸ .jeq h
  | jne h => exact jumpIf_prependOutput _ _ s earlier ▸ .jne h

/-- The fetch does not read the output. -/
theorem fetch_prependOutput (s : State) (earlier : List Byte) : (s.prependOutput earlier).fetch = s.fetch := rfl

/-- A fault's entry carries earlier output along. -/
theorem faultedWith_prependOutput (s : State) (k : FaultKind) (info : Nat) (earlier : List Byte) :
    (s.prependOutput earlier).faultedWith k info = (s.faultedWith k info).prependOutput earlier := rfl

/-- Neither the fault an instruction raises nor its completed form depends on the output. -/
theorem exec_prependOutput {i : Instr} {s t : State} (h : exec i s = .next t) (earlier : List Byte) :
    exec i (s.prependOutput earlier) = .next (t.prependOutput earlier) := by
  cases raised : ownFault i s with
  | some fault =>
    have raised' : ownFault i (s.prependOutput earlier) = some fault := raised
    cases h.symm.trans (exec_of_ownFault raised)
    rw [exec_of_ownFault raised', faultedWith_prependOutput]
  | none =>
    obtain ⟨u, completed, answers⟩ := exec_completes raised
    cases h.symm.trans answers
    exact (completed.prependOutput earlier).exec_eq

/-- Settles O12: a stopped machine's step, a faulting fetch and an instruction each carry earlier output along. -/
theorem outputIsNeverRead : Obligations.OutputIsNeverRead := by
  intro s t earlier h
  change step (s.prependOutput earlier) = .next (t.prependOutput earlier)
  by_cases running : s.status = .running
  case neg =>
    cases h.symm.trans (step_stopped running)
    exact step_stopped (s := s.prependOutput earlier) running
  cases fetched : s.fetch with
  | ok i =>
    rw [step_of_fetch running fetched] at h
    rw [step_of_fetch (s := s.prependOutput earlier) running fetched]
    exact exec_prependOutput h earlier
  | error f =>
    cases h.symm.trans (step_of_fetch_error running fetched)
    rw [step_of_fetch_error (s := s.prependOutput earlier) running fetched, faultedWith_prependOutput]

end Sys2Proof.Machine
end

section
/-! PROOFS. The machine's invariant: at reset, after the load, and over every step (10_state.md, 20_memory.md section 1,
60_exceptions.md section 3). -/

namespace Sys2Proof.Machine

/-- A running state holds no record, if a record is held exactly in Faulted. -/
theorem faultRecord_none {s : State} (recorded : s.faultRecord.isSome = true ↔ s.status = .faulted)
    (notFaulted : s.status ≠ .faulted) : s.faultRecord = none :=
  Option.not_isSome_iff_eq_none.mp fun held => notFaulted (recorded.mp held)

/-- A state that is not Faulted meets the invariant with its memory, pc and FL in order and no record held. -/
theorem inv_of_not_faulted {s : State} (memory : s.mem.wf) (pcRange : s.pc.toNat ≤ 256)
    (flags : s.fl = 0x00 ∨ s.fl = 0x01 ∨ s.fl = 0x02 ∨ s.fl = 0x04) (notFaulted : s.status ≠ .faulted)
    (noRecord : s.faultRecord = none) : Inv s where
  memory := memory
  pcRange := pcRange
  flags := flags
  recorded := by simp [noRecord, notFaulted]
  record r held := by simp [noRecord] at held

/-- The invariant at reset, in every configuration. -/
theorem inv_resetWith (c : Config) : Inv (State.resetWith c) :=
  inv_of_not_faulted (reset_mem_wf c) (Nat.zero_le 256) (.inl rfl) nofun rfl

/-- Settles O50: the reference configuration is one of them. -/
theorem invariantHoldsAtReset : Obligations.InvariantHoldsAtReset := ⟨inv_resetWith Config.reference, inv_resetWith⟩

/-- Settles O51: the load writes only memory, and at most up to address 255. -/
theorem invariantHoldsAfterLoad : Obligations.InvariantHoldsAfterLoad := by
  intro c program t h
  obtain ⟨fits, rfl⟩ := load_next h
  have memory := writeList_wf (x := 0) program (reset_mem_wf c) (by omega)
  exact inv_of_not_faulted memory (Nat.zero_le 256) (.inl rfl) nofun rfl

/-- Settles O47: the load's own check. -/
theorem longProgramIsLoadError : Obligations.LongProgramIsLoadError := by
  intro c program long
  rw [boot, State.load, if_neg (Nat.not_le.mpr long)]

/-- What the priority list names is what a record may hold, while pc is in 0..256. -/
theorem firstFault_sound {s : State} {k : FaultKind} {info : Nat} (pcRange : s.pc.toNat ≤ 256)
    (h : firstFault s = some (k, info)) : FaultRecord.Sound { kind := k, fpc := s.pc, info := info } := by
  have invalid {b : Byte} (above : 7 < b.toNat) : 8 ≤ b.toNat ∧ b.toNat ≤ 255 := ⟨above, byte_le b⟩
  simp only [firstFault] at h
  split_ifs at h with past legal missingA missingB invalidA invalidB callAtEnd
  all_goals cases h
  · exact Nat.le_antisymm pcRange past
  · exact Nat.le_antisymm (Nat.succ_le_succ (Nat.le_of_not_lt past)) missingA.2
  · have oneHeld : ¬ 255 < s.pc.toNat + 1 := fun pastA => missingA ⟨Nat.le_of_succ_le missingB.1, pastA⟩
    exact Nat.le_antisymm (Nat.succ_le_succ (Nat.le_of_not_lt oneHeld)) missingB.2
  · exact invalid invalidA.2
  · exact invalid invalidB.2.2
  · exact Eq.refl 256
  · exact ⟨byte_le _, by rwa [BitVec.ofNat_toNat, BitVec.setWidth_eq]⟩

/-- The entry of the priority list's first fault keeps the invariant: its record is sound and names the address pc still
holds. -/
theorem inv_faultedWith {s : State} {k : FaultKind} {info : Nat} (inv : Inv s) (first : firstFault s = some (k, info)) :
    Inv (s.faultedWith k info) where
  memory := inv.memory
  pcRange := inv.pcRange
  flags := inv.flags
  recorded := ⟨fun _ => rfl, fun _ => rfl⟩
  record r held := by
    cases held
    exact ⟨rfl, firstFault_sound inv.pcRange first⟩

/-- The completion of a running machine's fetched instruction keeps the invariant. -/
theorem Completed.inv {i : Instr} {s t : State} (h : Completed s i t) (inv : Inv s) (running : s.status = .running)
    (fetched : s.fetch = .ok i) : Inv t := by
  have noRecord : s.faultRecord = none := faultRecord_none inv.recorded (by simp [running])
  refine inv_of_not_faulted (h.mem_wf inv.memory) (h.pc_le (fetch_inMemory fetched)) ?flags
    (h.status_ne_faulted running) (h.faultRecord_eq.trans noRecord)
  case flags =>
    rcases h.fl_cases with same | oneState
    · exact same ▸ inv.flags
    · exact .inr oneState

/-- Settles O52: a stopped machine's step keeps the state; a running one's enters the first fault of the priority list
or completes the instruction fetched. -/
theorem stepKeepsInvariant : Obligations.StepKeepsInvariant := by
  intro s t inv h
  by_cases running : s.status = .running
  case neg =>
    cases h.symm.trans (step_stopped running)
    exact inv
  rcases step_cases running with ⟨k, info, first, faults⟩ | ⟨-, i, u, fetched, completed, answers⟩
  · cases h.symm.trans faults
    exact inv_faultedWith inv first
  · cases h.symm.trans answers
    exact completed.inv inv running fetched

end Sys2Proof.Machine
end

section
/-! PROOFS. The canonical form of memory is unique (20_memory.md R50). -/

namespace Sys2Proof.Machine

/-- A listed cell of a canonical memory is what its address reads as. -/
theorem read_of_mem {m : Memory} {c : Host.Cell} (rising : m.Pairwise fun c d => c.1 < d.1) (h : c ∈ m) :
    m.read c.1 = c.2 := by
  induction m with
  | nil => cases h
  | cons d m ih =>
    obtain ⟨lowest, rising⟩ := List.pairwise_cons.mp rising
    rcases List.mem_cons.mp h with rfl | tail
    · exact if_pos rfl
    · exact (if_neg (lowest c tail).ne).trans (ih rising tail)

/-- An address that does not read as 0 is listed. -/
theorem mem_of_read {m : Memory} {x : Nat} (h : m.read x ≠ 0) : (x, m.read x) ∈ m := by
  induction m with
  | nil => exact absurd rfl h
  | cons d m ih =>
    by_cases here : d.1 = x
    · have reads : Memory.read (d :: m) x = d.2 := if_pos here
      rw [reads, ← here]
      exact List.mem_cons_self
    · simp only [Memory.read, if_neg here] at h ⊢
      exact List.mem_cons_of_mem d (ih h)

/-- The cells of a canonical memory are those its non-zero reads give. -/
theorem mem_iff_read {m : Memory} (wf : m.wf) (c : Host.Cell) : c ∈ m ↔ m.read c.1 = c.2 ∧ c.2 ≠ 0 := by
  constructor
  case mp => exact fun listed => ⟨read_of_mem wf.1 listed, (wf.2 c listed).2⟩
  case mpr =>
    rintro ⟨reads, nonzero⟩
    have listed := mem_of_read (m := m) (x := c.1) (reads ▸ nonzero)
    rwa [reads] at listed

/-- Strictly rising addresses list no cell twice. -/
theorem nodup_of_wf {m : Memory} (wf : m.wf) : m.Nodup :=
  wf.1.imp fun rising same => absurd (congrArg Prod.fst same) rising.ne

/-- Settles O49: equal reads list the same cells, and two lists of the same cells, both with addresses strictly rising,
are equal. -/
theorem canonicalMemoryIsUnique : Obligations.CanonicalMemoryIsUnique := by
  intro m m' wf wf' sameReads
  have sameCells : m.Perm m' := by
    rw [List.perm_ext_iff_of_nodup (nodup_of_wf wf) (nodup_of_wf wf')]
    intro c
    rw [mem_iff_read wf, mem_iff_read wf', sameReads]
  exact sameCells.eq_of_pairwise (fun c d _ _ below above => absurd below above.not_gt) wf.1 wf'.1

end Sys2Proof.Machine
end

section
/-! PROOFS. HLT, CMP, and the jumps a comparison decides (41_register_io_halt.md, 40_alu.md section 2,
43_control_transfer.md section 2). -/

namespace Sys2Proof.Machine

/-- Settles O10: the completed form halts, and a stopped machine's step changes nothing. -/
theorem hltStopsTheRun : Obligations.HltStopsTheRun := fun s =>
  ⟨_, exec_hlt s, rfl, fun _ _ => rfl, fun _ _ => rfl, rfl, rfl, rfl, step_stopped nofun⟩

/-! ### CMP -/

/-- Each state of FL stands for one outcome of the comparison. -/
theorem aluCmp_iff (u v : Byte) :
    (aluCmp u v = 0x01 ↔ u = v) ∧ (aluCmp u v = 0x02 ↔ v.toNat < u.toNat) ∧
      (aluCmp u v = 0x04 ↔ u.toNat < v.toNat) := by
  rcases aluCmp_cases u v with ⟨rfl, equal⟩ | ⟨above, greater⟩ | ⟨below, less⟩
  · simp [equal, flEqual]
  · have differ : u ≠ v := by rintro rfl; exact lt_irrefl _ above
    simp [greater, flGreater, differ, above, above.le]
  · have differ : u ≠ v := by rintro rfl; exact lt_irrefl _ below
    simp [less, flLess, differ, below, below.le]

/-- Settles O15: the completed form puts the comparison in FL and touches nothing else but pc. -/
theorem cmpSetsOneFlagState : Obligations.CmpSetsOneFlagState := by
  intro a b ra rb s ha hb
  obtain ⟨equal, greater, less⟩ := aluCmp_iff (s.reg ra) (s.reg rb)
  exact ⟨_, exec_cmp_valid s ha hb, equal, greater, less, advance_pc _ 2, fun _ _ => rfl, fun _ _ => rfl, rfl, rfl,
    rfl⟩

/-! ### JEQ and JNE -/

/-- FL in the equal state. -/
theorem isEqual_true {s : State} (h : s.fl = 0x01) : s.isEqual = true := decide_eq_true h

/-- FL in another state. -/
theorem isEqual_false {s : State} (h : s.fl ≠ 0x01) : s.isEqual = false := decide_eq_false h

/-- A jump taken goes to the register's byte. -/
theorem jumpIf_taken (r : Reg) (s : State) : (jumpIf true r s).pc.toNat = (s.reg r).toNat :=
  jumpTo_pc_toNat s (s.reg r)

/-- A jump not taken goes past its two bytes. -/
theorem jumpIf_notTaken (r : Reg) (s : State) : (jumpIf false r s).pc = s.pc + 2 := advance_pc s 1

/-- A conditional jump changes nothing but pc, taken or not. -/
theorem jumpIf_frame (taken : Bool) (r : Reg) (s : State) :
    SameRegsBut [] s (jumpIf taken r s) ∧ SameBytesBut [] s (jumpIf taken r s) ∧ (jumpIf taken r s).fl = s.fl ∧
      (jumpIf taken r s).output = s.output ∧ SameRun s (jumpIf taken r s) := by
  cases taken <;> exact ⟨fun _ _ => rfl, fun _ _ => rfl, rfl, rfl, rfl, rfl⟩

/-- Settles O28: the jump taken or not, by FL, and its frame. -/
theorem jeqJumpsOnEqual : Obligations.JeqJumpsOnEqual := by
  intro a r s named
  refine ⟨_, exec_jeq_valid s named, fun equal => ?_, fun differ => ?_, jumpIf_frame _ r s⟩
  · rw [isEqual_true equal, jumpIf_taken]
  · rw [isEqual_false differ, jumpIf_notTaken]

/-- Settles O29: the jump taken or not, by FL, and its frame. -/
theorem jneJumpsUnlessEqual : Obligations.JneJumpsUnlessEqual := by
  intro a r s named
  refine ⟨_, exec_jne_valid s named, fun differ => ?_, fun equal => ?_, jumpIf_frame _ r s⟩
  · rw [isEqual_false differ, Bool.not_false, jumpIf_taken]
  · rw [isEqual_true equal, Bool.not_true, jumpIf_notTaken]

/-- Settles O31: 0 is not the equal state. -/
theorem whileFlagsZeroOnlyJneBranches : Obligations.WhileFlagsZeroOnlyJneBranches := by
  refine ⟨fun _ => rfl, fun a r s named zero => ?_⟩
  have notEqual : s.fl ≠ 0x01 := by simp [zero]
  obtain ⟨t, jeq, -, fallsThrough, -⟩ := jeqJumpsOnEqual a r s named
  obtain ⟨u, jne, branches, -⟩ := jneJumpsUnlessEqual a r s named
  exact ⟨t, u, jeq, jne, fallsThrough notEqual, branches notEqual⟩

/-- Settles O30: CMP leaves FL in the equal state exactly for equal registers, and the jumps read just that. -/
theorem compareDecidesTheJumps : Obligations.CompareDecidesTheJumps := by
  intro a b c ra rb rc s ha hb hc
  obtain ⟨t, cmp, equalState, -, -, pc, regs, -⟩ := cmpSetsOneFlagState a b ra rb s ha hb
  obtain ⟨u, jeq, jeqTaken, jeqPast, -⟩ := jeqJumpsOnEqual c rc t hc
  obtain ⟨v, jne, jneTaken, jnePast, -⟩ := jneJumpsUnlessEqual c rc t hc
  have past : t.pc + 2 = s.pc + 5 := by rw [pc, BitVec.add_assoc]; rfl
  have target : t.reg rc = s.reg rc := regs rc List.not_mem_nil
  rw [past] at jeqPast jnePast
  rw [target] at jeqTaken jneTaken
  refine ⟨t, u, v, cmp, jeq, jne, fun same => ?_, fun differ => ?_⟩
  · exact ⟨jeqTaken (equalState.mpr same), jnePast (equalState.mpr same)⟩
  · exact ⟨jeqPast (mt equalState.mp differ), jneTaken (mt equalState.mp differ)⟩

end Sys2Proof.Machine
end

section
/-! PROOFS. The stack: PUSH, POP, CALL, RET, and what one undoes of the other (42_stack.md, 43_control_transfer.md
section 1, 70_reset_and_hazards.md section 3). -/

namespace Sys2Proof.Machine

/-! ### PUSH and CALL: a byte stored below the stack pointer -/

/-- A register as it stands after the decrement. -/
theorem reg_decSp (s : State) (q : Reg) : s.decSp.reg q = if q = 7 then s.sp - 1 else s.reg q :=
  reg_setReg s 7 q (s.sp - 1)

/-- Storing below the decremented stack pointer changes register 7 and that cell alone. -/
theorem storeBelow_frame (s : State) (v : Byte) :
    SameRegsBut [7] s (s.decSp.setByte (s.sp - 1).toNat v) ∧
      SameBytesBut [(s.sp - 1).toNat] s (s.decSp.setByte (s.sp - 1).toNat v) := by
  refine ⟨fun q hq => ?regs, fun x hx => ?bytes⟩
  case regs => rw [reg_setByte, reg_decSp, if_neg (by simpa using hq)]
  case bytes => exact byteAt_setByte_ne s.decSp v (by simpa using hx)

/-- Settles O18: the completed form is the store below and a pc advance. -/
theorem pushStoresBelow : Obligations.PushStoresBelow := by
  intro a r s named
  obtain ⟨regs, bytes⟩ := storeBelow_frame s (s.decSp.reg r)
  refine ⟨_, exec_push_valid s named, sp_decSp s, ?stored, regs, bytes, advance_pc _ 1, rfl, rfl, rfl, rfl⟩
  case stored => rw [byteAt_advance, byteAt_setByte_self, reg_decSp]

/-- Settles O23: the completed form is the store below and a jump; pc + 2 is a byte. -/
theorem callPushesReturnAddress : Obligations.CallPushesReturnAddress := by
  intro a r s named below
  obtain ⟨regs, bytes⟩ := storeBelow_frame s (BitVec.ofNat 8 (s.pc.toNat + 2))
  refine ⟨_, exec_call_valid s named below, sp_decSp s, ?stored, ?target, regs, bytes, rfl, rfl, rfl, rfl⟩
  case stored =>
    rw [byteAt_jumpTo, byteAt_setByte_self, BitVec.toNat_ofNat, Nat.mod_eq_of_lt (by omega)]
  case target => rw [jumpTo_pc_toNat, reg_decSp]

/-! ### POP and RET: the cell at the stack pointer cleared -/

/-- The stack pointer after an increment. -/
theorem sp_incSp (s : State) : s.incSp.sp = s.sp + 1 := by simp [incSp_eq, sp_setReg]

/-- Clearing a cell and incrementing the stack pointer changes that cell and register 7 alone. -/
theorem clearAndInc_frame (s : State) (x : Nat) :
    SameRegsBut [7] s (s.setByte x 0).incSp ∧ SameBytesBut [x] s (s.setByte x 0).incSp := by
  refine ⟨fun q hq => ?regs, fun y hy => ?bytes⟩
  case regs => rw [incSp_eq, reg_setReg_ne _ _ (by simpa using hq), reg_setByte]
  case bytes => exact byteAt_setByte_ne s 0 (by simpa using hy)

/-- POP into a register other than R7 clears the cell the stack pointer addressed before. -/
theorem exec_pop_ne_sp {a : Byte} {r : Reg} (s : State) (h : Names a r) (notSp : r ≠ 7) :
    exec (.pop a) s = .next
      (((s.setReg r (s.byteAt s.sp.toNat)).setByte s.sp.toNat 0).incSp.advance 1) := by
  rw [exec_pop_valid s h, sp_setReg, if_neg notSp]

/-- Settles O19: the load leaves the stack pointer, so the clear and the increment work at the popped cell. -/
theorem popLoadsAndClears : Obligations.PopLoadsAndClears := by
  intro a r s named notSp
  obtain ⟨regs, bytes⟩ := clearAndInc_frame (s.setReg r (s.byteAt s.sp.toNat)) s.sp.toNat
  refine ⟨_, exec_pop_ne_sp s named notSp, ?loaded, ?sp, byteAt_setByte_self (s.setReg r _) _ 0, ?others, bytes,
    advance_pc _ 1, rfl, rfl, rfl, rfl⟩
  case loaded => exact (regs r (by simpa using notSp)).trans (reg_setReg_self s r _)
  case sp => rw [sp_advance, sp_incSp, sp_setByte, sp_setReg, if_neg notSp]
  case others =>
    intro q hq
    obtain ⟨other, otherThanSp⟩ : q ≠ r ∧ q ≠ 7 := by simpa using hq
    exact (regs q (by simpa using otherThanSp)).trans (reg_setReg_ne s _ other)

/-- Settles O25: the completed form jumps to the popped byte, then clears and increments. -/
theorem retPopsIntoPc : Obligations.RetPopsIntoPc := by
  intro s
  obtain ⟨regs, bytes⟩ := clearAndInc_frame (s.jumpTo (s.byteAt s.sp.toNat)) s.sp.toNat
  exact ⟨_, exec_ret s, jumpTo_pc_toNat s _, byteAt_setByte_self (s.jumpTo _) _ 0, sp_incSp _, regs, bytes,
    rfl, rfl, rfl, rfl⟩

/-! ### One undoes the other -/

/-- Settles O21: POP reads at the stack pointer PUSH left, where PUSH stored the register; each changes that cell and
register 7, which comes back. -/
theorem popUndoesPush : Obligations.PopUndoesPush := by
  intro a b r r2 s named named2 notSp notSp2
  obtain ⟨t, push, sp, stored, regs, bytes, -⟩ := pushStoresBelow a r s named
  obtain ⟨u, pop, loaded, sp', cleared, regs', bytes', -⟩ := popLoadsAndClears b r2 t named2 notSp2
  rw [sp] at loaded sp' cleared bytes'
  have restored : u.sp = s.sp := sp'.trans (BitVec.sub_add_cancel s.sp 1)
  refine ⟨t, u, push, pop, ?copied, restored, cleared, ?others, fun x hx => (bytes' x hx).trans (bytes x hx)⟩
  case copied => rw [loaded, stored, if_neg notSp]
  case others =>
    intro q hq
    by_cases isSp : q = 7
    · exact isSp ▸ restored
    · have other : q ≠ r2 := by simpa using hq
      exact (regs' q (by simp [other, isSp])).trans (regs q (by simpa using isSp))

/-- Settles O26: RET reads at the stack pointer CALL left, where CALL stored pc + 2; each changes that cell and register
7, which comes back. -/
theorem retUndoesCall : Obligations.RetUndoesCall := by
  intro a r s named below
  obtain ⟨t, call, sp, stored, -, regs, bytes, -⟩ := callPushesReturnAddress a r s named below
  obtain ⟨u, ret, back, cleared, sp', regs', bytes', -⟩ := retPopsIntoPc t
  rw [sp] at back cleared sp' bytes'
  have restored : u.sp = s.sp := sp'.trans (BitVec.sub_add_cancel s.sp 1)
  refine ⟨t, u, call, ret, ?back, ?others, cleared, fun x hx => (bytes' x hx).trans (bytes x hx)⟩
  case back =>
    have next : (s.pc + 2).toNat = s.pc.toNat + 2 := pc_add_toNat (n := 2) (by omega)
    exact BitVec.eq_of_toNat_eq (by rw [back, stored, next])
  case others =>
    intro q _
    by_cases isSp : q = 7
    · exact isSp ▸ restored
    · exact (regs' q (by simpa using isSp)).trans (regs q (by simpa using isSp))

/-- Settles O22: after the PUSH pc addresses the cell it stored to, so the step fetches the pushed byte. -/
theorem pushedByteIsFetchedNext : Obligations.PushedByteIsFetchedNext := by
  intro a r s named notSp running atNext illegal
  obtain ⟨t, push, -, stored, -, -, pc, -, -, status, -⟩ := pushStoresBelow a r s named
  have pcStored : t.pc.toNat = (s.sp - 1).toNat := by
    have inRange := byte_le (s.sp - 1)
    rw [pc, atNext]
    exact pc_add_toNat (n := 2) (by omega)
  have fetched : t.opcodeAtPc = s.reg r := by rw [State.opcodeAtPc, pcStored, stored, if_neg notSp]
  have faults := step_illegal (status.trans running) (pcStored ▸ byte_le (s.sp - 1)) (fetched ▸ illegal)
  exact ⟨t, push, fetched ▸ faults⟩

end Sys2Proof.Machine
end

section
/-! PROOFS. The status port (60_exceptions.md R261). -/

namespace Sys2Proof.Machine

/-- While Running the port reports the status alone. -/
theorem statusReport_running {s : State} (h : s.status = .running) :
    s.statusReport = { status := .running, fault := none, state := none } := by
  simp only [State.statusReport, h]

/-- When Halted the port reports the state too. -/
theorem statusReport_halted {s : State} (h : s.status = .halted) :
    s.statusReport = { status := .halted, fault := none, state := some s } := by
  simp only [State.statusReport, h]

/-- When Faulted the port reports the coded record and the state too. -/
theorem statusReport_faulted {s : State} (h : s.status = .faulted) :
    s.statusReport = { status := .faulted, fault := s.faultRecord.map fun r => (r.kind.code, r.fpc, r.info),
                       state := some s } := by
  simp only [State.statusReport, h]

/-- Settles O44: the port's answer for each run status, and the code of each fault. -/
theorem statusPortReports : Obligations.StatusPortReports := by
  intro s
  cases status : s.status with
  | running => rw [statusReport_running status]; exact ⟨rfl, fun _ => rfl, nofun, rfl⟩
  | halted => rw [statusReport_halted status]; exact ⟨rfl, fun _ => rfl, nofun, rfl⟩
  | faulted =>
    rw [statusReport_faulted status]
    refine ⟨rfl, fun notFaulted => absurd rfl notFaulted, fun k fpc info _ recorded => ?_, rfl⟩
    rw [recorded]
    cases k <;> rfl

end Sys2Proof.Machine
end
